-- ==== Sys2Proof/Word.lean ====
section
/-! DEFINITION. The machine's word: an exact integer, and the range of the `W`-bit signed words.

Rule R12 (spec/00_scope.md) says that a word IS an integer in `[WMIN, WMAX]`, that pseudocode arithmetic is exact integer
arithmetic, and that no bit of a word is a field; rule R8 leaves the width `W` a parameter. So a word has the
type `Int`, and being in range is a property of it (`InWord`), kept by every step (`Machine.State.Inv` in
Sys2Proof/Safety.lean). The type is written `Int` itself, with no synonym, so that `omega` reads every comparison. -/

namespace Sys2Proof

/-- `WMIN = -2^(W-1)` (rule R8). -/
def wmin (W : Nat) : Int := -(2 ^ (W - 1) : Int)

/-- `WMAX = 2^(W-1) - 1` (rule R8). -/
def wmax (W : Nat) : Int := (2 ^ (W - 1) : Int) - 1

/-- `v` is a `W`-bit two's complement word: `WMIN <= v <= WMAX` (rule R8). -/
abbrev InWord (W : Nat) (v : Int) : Prop := wmin W ≤ v ∧ v ≤ wmax W

end Sys2Proof
end

