-- ==== Sys2Proof/Config.lean ====
section
/-! DEFINITION. The implementation parameters of spec/00_scope.md section 3: `W`, `OVERFLOW_MODE` and `OUTPUT_CAPACITY`.

The spec leaves them OPEN and says that "a model takes these as arguments", each "fixed for the life of one Program
instance". Each instance holds its own copy (`Machine.State.params`), so that a statement about every state is a statement
about every width, both overflow modes and every capacity. The fourth parameter, `N`, is the memory's length. -/

namespace Sys2Proof

/-- `OVERFLOW_MODE` (rule R10): what Add and Mul do when the exact result does not fit in `W` bits. -/
inductive OverflowMode where
  | fault
  | wrap
  deriving DecidableEq, Repr

/-- The parameters of one instance (spec/00_scope.md section 3). -/
structure Params where
  /-- `W`, the width of every word (rule R8). -/
  wordBits       : Nat
  /-- `OVERFLOW_MODE` (rule R10). -/
  overflowMode   : OverflowMode
  /-- `OUTPUT_CAPACITY` (rule R11): `none` is Unbounded. -/
  outputCapacity : Option Nat
  deriving DecidableEq, Repr

/-- The spec's defaults: `Fault` (rule R10) and `Unbounded` (rule R11); `W = 64`, the width the test vectors use, since
rule R8 leaves the width open. DESIGN CHOICE for the width (notes/assumptions/1.md). -/
def Params.default : Params :=
  { wordBits := 64, overflowMode := .fault, outputCapacity := none }

end Sys2Proof
end

