-- ==== Sys2Proof/Syntax.lean ====
section
/-! DEFINITION. The instruction set as syntax: addressing modes, the decoded record, the nine operations, and the
assembler's terms (spec/30_encoding.md). -/

namespace Sys2Proof

/-- An addressing mode (rule R75): digit 0 is Position, digit 1 is Immediate. -/
inductive Mode where
  | position
  | immediate
  deriving DecidableEq, Repr

/-- The Decoder's field-extraction result (rule R77). It exists for every operation value 0 to 99, supported or not. -/
structure OpCode where
  operation : Nat
  arg0Mode  : Mode
  arg1Mode  : Mode
  arg2Mode  : Mode
  deriving DecidableEq, Repr

/-- A decoded instruction: a supported operation with its three mode digits, `m0`, `m1`, `m2` of arguments 0, 1 and 2.
The mode digits of arguments an operation does not have are kept, so that each of the 72 decodable words (rule R82) is
exactly one term. The argument words stay in memory, where the Parameter Resolver reads them (rules R81 and R92). -/
inductive Instr where
  | add         (m0 m1 m2 : Mode)
  | mul         (m0 m1 m2 : Mode)
  | input       (m0 m1 m2 : Mode)
  | output      (m0 m1 m2 : Mode)
  | jumpIfTrue  (m0 m1 m2 : Mode)
  | jumpIfFalse (m0 m1 m2 : Mode)
  | lessThan    (m0 m1 m2 : Mode)
  | equals      (m0 m1 m2 : Mode)
  | terminate   (m0 m1 m2 : Mode)
  deriving DecidableEq, Repr

/-- An assembler operand (rule R102): `#v` is `imm v` and `[a]` is `pos a`. -/
inductive Operand where
  | imm (v : Int)
  | pos (a : Int)
  deriving DecidableEq, Repr

/-- A line of assembly (rules R101 and R103): an instruction with exactly its operands, or the directive `.word`. -/
inductive Asm where
  | add         (left right target : Operand)
  | mul         (left right target : Operand)
  | input       (target : Operand)
  | output      (value : Operand)
  | jumpIfTrue  (condition target : Operand)
  | jumpIfFalse (condition target : Operand)
  | lessThan    (left right target : Operand)
  | equals      (left right target : Operand)
  | terminate
  | word        (values : List Int)
  deriving DecidableEq, Repr

end Sys2Proof
end

