-- ==== Sys2Proof/Machine/Errors.lean ====
section
/-! DEFINITION. The error taxonomy of spec/60_exceptions.md rule R190, with the numeric codes and payload fields of the
STATUS and ERR_VALUE registers. -/

namespace Sys2Proof.Machine

/-- The two operations that can overflow (rule R190, error 8). -/
inductive ArithOp where
  | add
  | mul
  deriving DecidableEq, Repr

/-- The nine error kinds, each with its payload (rule R190). An argument index is 0-based (rule R14). -/
inductive Err where
  /-- `w` is negative, at least 100000, or has an unsupported operation; the payload is the whole word. -/
  | invalidOpCode (w : Int)
  /-- The mode digit `m` of argument `i` is not 0 or 1. -/
  | invalidParamMode (i : Fin 3) (m : Nat)
  /-- Argument `i` is Position and its word `r` is no memory index. -/
  | positionOutOfBounds (i : Fin 3) (r : Int)
  /-- The write target, argument `i`, is Immediate. -/
  | immediateTargetParam (i : Fin 3)
  /-- Input found the input queue empty. -/
  | inputExhausted
  /-- The fetch found `pc` outside memory. -/
  | pcOutOfBounds (pc : Int)
  /-- The argument word of argument `i`, at index `a = pc + 1 + i`, lies beyond the end of memory. -/
  | operandFetchOutOfBounds (i : Fin 3) (a : Int)
  /-- The exact result of `op` does not fit and `OVERFLOW_MODE = Fault`. -/
  | arithmeticOverflow (op : ArithOp)
  /-- Output found the output log full. -/
  | outputOverflow
  deriving DecidableEq, Repr

/-- The operation's number. -/
def ArithOp.number : ArithOp → Nat
  | .add => 1
  | .mul => 2

/-- The column "code" of rule R190: the value of STATUS.ERR_CODE. -/
def Err.code : Err → BitVec 6
  | .invalidOpCode _ => 1
  | .invalidParamMode _ _ => 2
  | .positionOutOfBounds _ _ => 3
  | .immediateTargetParam _ => 4
  | .inputExhausted => 5
  | .pcOutOfBounds _ => 6
  | .operandFetchOutOfBounds _ _ => 7
  | .arithmeticOverflow _ => 8
  | .outputOverflow => 9

/-- The column "ERR_ARG" of rule R190: the argument index, or 3 when the error has none. -/
def Err.arg : Err → BitVec 2
  | .invalidParamMode i _ | .positionOutOfBounds i _ | .immediateTargetParam i
  | .operandFetchOutOfBounds i _ => BitVec.ofNat 2 i.val
  | .invalidOpCode _ | .inputExhausted | .pcOutOfBounds _ | .arithmeticOverflow _ | .outputOverflow => 3

/-- The column "ERR_VALUE" of rule R190: the word the error carries, or 0. -/
def Err.value : Err → Int
  | .invalidOpCode w => w
  | .invalidParamMode _ m => m
  | .positionOutOfBounds _ r => r
  | .immediateTargetParam _ => 0
  | .inputExhausted => 0
  | .pcOutOfBounds pc => pc
  | .operandFetchOutOfBounds _ a => a
  | .arithmeticOverflow op => op.number
  | .outputOverflow => 0

end Sys2Proof.Machine
end

