-- ==== Sys2Proof/Decode.lean ====
section
/-! DEFINITION. The Decoder (spec/30_encoding.md rules R70 to R87), the encoder written from the same table, and the
reading of a table word that the host asks for.

The encoding is decimal: the fields of an instruction word are its decimal digits (rule R71). -/

namespace Sys2Proof

open Machine (Err)

/-- `digit(w, k) = floor(w / 10^k) mod 10` (rule R12), used only for `w >= 0`. -/
def digit (w : Int) (k : Nat) : Nat := (w / 10 ^ k % 10).toNat

/-- The mode a mode digit names (rule R77): `M(0) = Position`, `M(1) = Immediate`; no other digit is a mode (rule R75). -/
def modeOfDigit : Nat → Option Mode
  | 0 => some .position
  | 1 => some .immediate
  | _ => none

/-- The mode digit of argument `i` sits at decimal place `2 + i` (rule R71). -/
def decodeMode (w : Int) (i : Fin 3) : Except Err Mode :=
  match modeOfDigit (digit w (2 + i.val)) with
  | some m => .ok m
  | none => .error (.invalidParamMode i (digit w (2 + i.val)))

/-- Field extraction (rules R74 to R77): the range check, then the three mode digits in order, then the operation field,
which ranges over 0 to 99 here. -/
def extractFields (w : Int) : Except Err OpCode :=
  if w < 0 ∨ 100000 ≤ w then .error (.invalidOpCode w)
  else do
    let m0 ← decodeMode w 0
    let m1 ← decodeMode w 1
    let m2 ← decodeMode w 2
    return { operation := (w % 100).toNat, arg0Mode := m0, arg1Mode := m1, arg2Mode := m2 }

/-- The operation check (rule R78): 1 to 8 and 99 are supported, nothing else is. -/
def selectInstr (c : OpCode) : Option Instr :=
  match c.operation with
  | 1 => some (.add c.arg0Mode c.arg1Mode c.arg2Mode)
  | 2 => some (.mul c.arg0Mode c.arg1Mode c.arg2Mode)
  | 3 => some (.input c.arg0Mode c.arg1Mode c.arg2Mode)
  | 4 => some (.output c.arg0Mode c.arg1Mode c.arg2Mode)
  | 5 => some (.jumpIfTrue c.arg0Mode c.arg1Mode c.arg2Mode)
  | 6 => some (.jumpIfFalse c.arg0Mode c.arg1Mode c.arg2Mode)
  | 7 => some (.lessThan c.arg0Mode c.arg1Mode c.arg2Mode)
  | 8 => some (.equals c.arg0Mode c.arg1Mode c.arg2Mode)
  | 99 => some (.terminate c.arg0Mode c.arg1Mode c.arg2Mode)
  | _ => none

/-- The whole Decoder (rule R80): total on every integer, its checks in the order of rule R79, each rejection by name. -/
def decode (w : Int) : Except Err Instr := do
  let c ← extractFields w
  match selectInstr c with
  | some i => return i
  | none => .error (.invalidOpCode w)

/-- The operation number (rule R73). -/
def Instr.operation : Instr → Nat
  | .add _ _ _ => 1
  | .mul _ _ _ => 2
  | .input _ _ _ => 3
  | .output _ _ _ => 4
  | .jumpIfTrue _ _ _ => 5
  | .jumpIfFalse _ _ _ => 6
  | .lessThan _ _ _ => 7
  | .equals _ _ _ => 8
  | .terminate _ _ _ => 99

/-- The mode digit of argument `i`, whether or not the operation has that argument. -/
def Instr.mode (ins : Instr) (i : Fin 3) : Mode :=
  match ins with
  | .add m0 m1 m2 | .mul m0 m1 m2 | .input m0 m1 m2 | .output m0 m1 m2 | .jumpIfTrue m0 m1 m2
  | .jumpIfFalse m0 m1 m2 | .lessThan m0 m1 m2 | .equals m0 m1 m2 | .terminate m0 m1 m2 =>
    match i with
    | 0 => m0
    | 1 => m1
    | 2 => m2

/-- The argument count `n` (rule R73). -/
def Instr.nargs : Instr → Nat
  | .add _ _ _ | .mul _ _ _ | .lessThan _ _ _ | .equals _ _ _ => 3
  | .jumpIfTrue _ _ _ | .jumpIfFalse _ _ _ => 2
  | .input _ _ _ | .output _ _ _ => 1
  | .terminate _ _ _ => 0

/-- The length in words (rules R73 and R84). -/
def Instr.length : Instr → Nat
  | .add _ _ _ | .mul _ _ _ | .lessThan _ _ _ | .equals _ _ _ => 4
  | .jumpIfTrue _ _ _ | .jumpIfFalse _ _ _ => 3
  | .input _ _ _ | .output _ _ _ => 2
  | .terminate _ _ _ => 1

/-- The argument an operation writes to, if any (the column "tgt" of rule R73). -/
def Instr.targetArg : Instr → Option (Fin 3)
  | .add _ _ _ | .mul _ _ _ | .lessThan _ _ _ | .equals _ _ _ => some 2
  | .input _ _ _ => some 0
  | .output _ _ _ | .jumpIfTrue _ _ _ | .jumpIfFalse _ _ _ | .terminate _ _ _ => none

/-- The Decoder as a hardware block (rule R81): one word in; the operation, the three one-bit modes, the argument count
and the length out, or one error. -/
structure DecoderOutput where
  opcode : OpCode
  nargs  : Nat
  length : Nat
  deriving DecidableEq, Repr

/-- What the Decoder block delivers for a word (rule R81). -/
def decoderBlock (w : Int) : Except Err DecoderOutput := do
  let i ← decode w
  return { opcode := { operation := i.operation, arg0Mode := i.mode 0, arg1Mode := i.mode 1, arg2Mode := i.mode 2 },
           nargs := i.nargs, length := i.length }

/-- The digit that names a mode (rule R71). -/
def Mode.digit : Mode → Int
  | .position => 0
  | .immediate => 1

/-- The instruction word `op + 100*A + 1000*B + 10000*C` (rule R71). -/
def encode (i : Instr) : Int :=
  i.operation + 100 * (i.mode 0).digit + 1000 * (i.mode 1).digit + 10000 * (i.mode 2).digit

/-- The value of a `W`-bit field read as a two's complement word (rule R8). -/
def signedOfBits (W x : Nat) : Int := if x < 2 ^ (W - 1) then (x : Int) else (x : Int) - 2 ^ W

/-- Word `k` of a bit pattern `w` of `nbits` bits laid out over `W`-bit words, bit 0 the least significant bit of word 0;
every bit above `nbits` is 0. DESIGN CHOICE (notes/assumptions/11.md): the spec has no bit view of an instruction. -/
def tableWord (W nbits w k : Nat) : Int := signedOfBits W (w % 2 ^ nbits / 2 ^ (W * k) % 2 ^ W)

/-- The instruction the Decoder reads from a table row's bits, at the default width. -/
def decodeTableWord (nbits w : Nat) : Option Instr :=
  match decode (tableWord Params.default.wordBits nbits w 0) with
  | .ok i => some i
  | .error _ => none

end Sys2Proof
end

