-- ==== Sys2Proof/Machine/State.lean ====
section
/-! DEFINITION. The state of one Program instance (spec/10_state.md section 1), the reasons a step can stop, and the state
after construction. -/

namespace Sys2Proof.Machine

/-- Memory (rules R21 and R50): `length` words at indices `0` to `length - 1`. `cells` lists (index, word) pairs, in the
canonical form `Memory.wf` (Sys2Proof/Machine/Ops.lean): indices strictly rising and below `length`, no word equal to what
an unlisted index holds. The cell is a word because the word is the unit of addressing and of access (rule R51), and no
byte of it can be observed (rule R52). -/
structure Memory where
  length : Nat
  cells  : List (Nat × Int)
  deriving DecidableEq, Repr

/-- The run state (rule R31). -/
inductive RunState where
  | running
  | halted
  | failed
  deriving DecidableEq, Repr

/-- One Program instance: everything the table of spec/10_state.md section 1 lists, and the instance's parameters. -/
structure State where
  /-- `W`, `OVERFLOW_MODE` and `OUTPUT_CAPACITY` of this instance; fixed for its life (spec/00_scope.md section 3). -/
  params   : Params
  /-- `mem[0..N-1]`, with `N` its length (rules R9, R21, R22). -/
  mem      : Memory
  /-- The instruction pointer, a signed word (rules R24 and R25). -/
  pc       : Int
  /-- The input queue, front first (rule R28). -/
  inQueue  : List Int
  /-- The output log, oldest value first (rule R29). -/
  outLog   : List Int
  /-- The run state (rule R31). -/
  runState : RunState
  /-- The error record (rule R32). -/
  err      : Option Err
  deriving DecidableEq, Repr

/-- Why there is no step. The machine's errors are not here: an error is a step, to a Failed state (rules R120 and R197).
Both reasons are the terminal states of rule R121, in which the spec has no step; both are safe, since nothing follows. -/
inductive Fault where
  /-- Raised by `step` in a Halted state: "Halted and Failed are terminal" (rule R121). Safe. -/
  | alreadyHalted
  /-- Raised by `step` in a Failed state, whose error stays in `err` (rules R121 and R198). Safe. -/
  | alreadyFailed
  deriving DecidableEq, Repr

/-- Why an instruction is refused. -/
inductive Refusal where
  /-- Raised by `exec` for an instruction without a meaning; no arm of this model uses it. Safe. -/
  | notModelled (mnemonic : String)
  deriving DecidableEq, Repr

/-- The machine right after `create` with the spec's default parameters, the empty image and no input (rules R130 and
R221): `N = 0`, `pc = 0`, the queue and the log empty, Running, no error. The image and the input are the host's; none is
invented here. DESIGN CHOICE for the empty image and input (notes/assumptions/5.md). -/
def State.reset : State :=
  { params := Params.default
    mem := { length := 0, cells := [] }
    pc := 0
    inQueue := []
    outLog := []
    runState := .running
    err := none }

end Sys2Proof.Machine
end

