-- ==== Sys2Proof/Machine/Ops.lean ====
section
/-! DEFINITION. The shared operations: reading and writing one word of memory, building memory from an image, the fetch,
failure entry (the only trap, rule R197) and the commit of an instruction's effects (rules R115 to R118).

There is no return from failure: Failed is terminal (rule R198). -/

namespace Sys2Proof.Machine

/-- The word an index that `cells` does not list holds. A matter of representation only: every cell of a constructed
memory has the value its image gives (rule R22). DESIGN CHOICE (notes/assumptions/6.md). -/
def Memory.unlisted : Int := 0

/-- The word listed for index `a`. -/
def cellIn (a : Nat) : List (Nat × Int) → Int
  | [] => Memory.unlisted
  | (b, v) :: rest => if b = a then v else cellIn a rest

/-- `mem[a]` (rule R13), for `a` below the length; every reader checks the range first (rule R56). -/
def Memory.cell (m : Memory) (a : Nat) : Int := cellIn a m.cells

/-- Put a pair before the first larger index. -/
def insertCell (a : Nat) (v : Int) : List (Nat × Int) → List (Nat × Int)
  | [] => [(a, v)]
  | (b, x) :: rest => if b < a then (b, x) :: insertCell a v rest else (a, v) :: (b, x) :: rest

/-- Replace what is listed for index `a`, keeping the canonical form. -/
def setCell (a : Nat) (v : Int) (cells : List (Nat × Int)) : List (Nat × Int) :=
  if v = Memory.unlisted then cells.filter (fun c => c.1 != a)
  else insertCell a v (cells.filter (fun c => c.1 != a))

/-- `mem[a] <- v` (rule R13). "An access out of range never reads or writes anything" (rule R56). -/
def Memory.write (m : Memory) (a : Nat) (v : Int) : Memory :=
  if a < m.length then { m with cells := setCell a v m.cells } else m

/-- The canonical form: indices strictly rising and in range, nothing listed that an unlisted index holds anyway. -/
abbrev Memory.wf (m : Memory) : Prop :=
  m.cells.Pairwise (fun c d => c.1 < d.1) ∧ ∀ c ∈ m.cells, c.1 < m.length ∧ c.2 ≠ Memory.unlisted

/-- The cells of a sequence of words placed from index `a` on. -/
def cellsOfWords (a : Nat) : List Int → List (Nat × Int)
  | [] => []
  | v :: rest => if v = Memory.unlisted then cellsOfWords (a + 1) rest else (a, v) :: cellsOfWords (a + 1) rest

/-- The memory `create` builds from an image (rules R22 and R130): a copy of it, `N` its length. -/
def Memory.ofWords (image : List Int) : Memory :=
  { length := image.length, cells := cellsOfWords 0 image }

/-- `mem[0..N-1]` as a sequence (rule R134). -/
def Memory.toWords (m : Memory) : List Int := (List.range m.length).map m.cell

/-- A memory of at least `n` words, the new ones unlisted. No instruction grows memory (rule R21); only
`State.withFetchWord`, which stands for loading a program, uses this. -/
def Memory.grow (m : Memory) (n : Nat) : Memory := { m with length := max m.length n }

/-- Write a sequence of words from index `a` on. -/
def Memory.writeWords (m : Memory) (a : Nat) : List Int → Memory
  | [] => m
  | v :: rest => (m.write a v).writeWords (a + 1) rest

/-- A word used as an index is in range: `0 <= a < N` (rule R51). -/
abbrev Memory.InRange (m : Memory) (a : Int) : Prop := 0 ≤ a ∧ a < m.length

/-- The fetch (rule R112). -/
def fetch (s : State) : Except Err Int :=
  if s.mem.InRange s.pc then .ok (s.mem.cell s.pc.toNat) else .error (.pcOutOfBounds s.pc)

/-- The pointer update an instruction reports (rule R115). -/
inductive Next where
  | goto (t : Int)
  | halt
  deriving DecidableEq, Repr

/-- The effect record an instruction reports (rule R115). -/
structure Effects where
  write  : Option (Nat × Int)
  pop    : Bool
  append : Option Int
  next   : Next
  deriving DecidableEq, Repr

/-- Failure entry, the hardware's only trap (rules R120, R197 and R200): record the error, enter Failed, change nothing
else; `pc` keeps the index of the failing instruction. -/
def failureEntry (s : State) (e : Err) : State := { s with runState := .failed, err := some e }

/-- The memory after an effect record's write. -/
def Effects.memAfter (e : Effects) (m : Memory) : Memory :=
  match e.write with
  | some (a, v) => m.write a v
  | none => m

/-- The queue after an effect record's pop. -/
def Effects.queueAfter (e : Effects) (q : List Int) : List Int := if e.pop then q.tail else q

/-- The log after an effect record's append. -/
def Effects.logAfter (e : Effects) (l : List Int) : List Int :=
  match e.append with
  | some v => l ++ [v]
  | none => l

/-- The pointer after the pointer update (rule R118): the next pointer is stored unchecked (rule R119). -/
def Effects.pcAfter (e : Effects) (pc : Int) : Int :=
  match e.next with
  | .goto t => t
  | .halt => pc

/-- The run state after the pointer update (rule R118). -/
def Effects.runStateAfter (e : Effects) (r : RunState) : RunState :=
  match e.next with
  | .goto _ => r
  | .halt => .halted

/-- Commit (rules R117 and R118). No effect reads state another effect of the same step wrote, so the parts are
independent. -/
def commit (s : State) (e : Effects) : State :=
  { s with
    mem := e.memAfter s.mem
    pc := e.pcAfter s.pc
    inQueue := e.queueAfter s.inQueue
    outLog := e.logAfter s.outLog
    runState := e.runStateAfter s.runState }

/-- The end of a step: commit the effects, or enter Failed on the first error (rules R116, R117 and R120). -/
def complete (s : State) (r : Except Err Effects) : Host.Outcome State Fault Refusal :=
  match r with
  | .ok e => .next (commit s e)
  | .error e => .next (failureEntry s e)

end Sys2Proof.Machine
end

