-- ==== Sys2Proof/Machine/Flags.lean ====
section
/-! DEFINITION. The hardware has no flags (rule R34). This file holds the three computations that stand where other
machines have them: the narrowing of an arithmetic result with its overflow test (rule R142), truthiness (rule R162), and
the word a comparison delivers (rules R170 and R171). -/

namespace Sys2Proof.Machine

/-- The exact result reduced modulo `2^W` into `[WMIN, WMAX]` (rules R10 and R142, `OVERFLOW_MODE = Wrap`). -/
def wrapWord (W : Nat) (x : Int) : Int := (x + 2 ^ (W - 1)) % 2 ^ W - 2 ^ (W - 1)

/-- `Narrow` (rule R142): an exact result in range is kept; one out of range raises `ArithmeticOverflow` or wraps. -/
def narrow (p : Params) (op : ArithOp) (x : Int) : Except Err Int :=
  if InWord p.wordBits x then .ok x
  else
    match p.overflowMode with
    | .fault => .error (.arithmeticOverflow op)
    | .wrap => .ok (wrapWord p.wordBits x)

/-- Truthy is strictly greater than zero (rule R162; spec/90_conflicts.md C4), not "nonzero". -/
def truthy (c : Int) : Bool := decide (0 < c)

/-- The word of a comparison's outcome: 1 or 0 (rules R34, R170 and R171). -/
def boolWord (b : Bool) : Int := if b then 1 else 0

end Sys2Proof.Machine
end

