-- ==== Sys2Proof/Machine/Operands.lean ====
section
/-! DEFINITION. The Parameter Resolver (spec/30_encoding.md rules R90 to R99): every operand form there is. -/

namespace Sys2Proof.Machine

/-- A resolved argument (rule R90). -/
inductive Param where
  | immediate (v : Int)
  | position (a : Nat)
  deriving DecidableEq, Repr

/-- Resolve argument `i` in mode `m` (rule R98): the argument-word read (rule R93), then the literal (rule R94) or the
checked memory index (rule R95). -/
def resolve (s : State) (i : Fin 3) (m : Mode) : Except Err Param :=
  let a : Int := s.pc + 1 + i.val
  if s.mem.length ≤ a then .error (.operandFetchOutOfBounds i a)
  else
    let r := s.mem.cell a.toNat
    match m with
    | .immediate => .ok (.immediate r)
    | .position => if s.mem.InRange r then .ok (.position r.toNat) else .error (.positionOutOfBounds i r)

/-- Dereference for reading (rule R96). It never fails: a Position comes from `resolve`, so it is in range. -/
def value (m : Memory) : Param → Int
  | .immediate v => v
  | .position a => m.cell a

/-- The target check (rule R97). -/
def address (p : Param) (i : Fin 3) : Except Err Nat :=
  match p with
  | .position a => .ok a
  | .immediate _ => .error (.immediateTargetParam i)

/-- Resolve one declared argument, then execute (rules R91 and R114). -/
def withArgs1 (s : State) (m0 : Mode) (f : Param → Except Err Effects) : Except Err Effects := do
  let p0 ← resolve s 0 m0
  f p0

/-- Resolve two declared arguments in order, then execute (rules R91 and R114). -/
def withArgs2 (s : State) (m0 m1 : Mode) (f : Param → Param → Except Err Effects) : Except Err Effects := do
  let p0 ← resolve s 0 m0
  let p1 ← resolve s 1 m1
  f p0 p1

/-- Resolve three declared arguments in order, then execute (rules R91 and R114). -/
def withArgs3 (s : State) (m0 m1 m2 : Mode) (f : Param → Param → Param → Except Err Effects) : Except Err Effects := do
  let p0 ← resolve s 0 m0
  let p1 ← resolve s 1 m1
  let p2 ← resolve s 2 m2
  f p0 p1 p2

end Sys2Proof.Machine
end

