-- ==== Sys2Proof/Machine/Arithmetic.lean ====
section
/-! DEFINITION. Add and Mul (spec/41_arithmetic.md). -/

namespace Sys2Proof.Machine

/-- What Add and Mul share (rules R140 to R143): the target check, then the exact result of the source words narrowed,
then one write and an advance of 4. -/
def arithEffects (op : ArithOp) (exact : Int) (s : State) (p2 : Param) : Except Err Effects := do
  let a ← address p2 2
  let v ← narrow s.params op exact
  return { write := some (a, v), pop := false, append := none, next := .goto (s.pc + 4) }

/-- Add, operation 1 (rule R140). -/
def execAdd (m0 m1 m2 : Mode) (s : State) : Host.Outcome State Fault Refusal :=
  complete s (withArgs3 s m0 m1 m2 fun p0 p1 p2 => arithEffects .add (value s.mem p0 + value s.mem p1) s p2)

/-- Mul, operation 2 (rule R141). -/
def execMul (m0 m1 m2 : Mode) (s : State) : Host.Outcome State Fault Refusal :=
  complete s (withArgs3 s m0 m1 m2 fun p0 p1 p2 => arithEffects .mul (value s.mem p0 * value s.mem p1) s p2)

end Sys2Proof.Machine
end

