-- ==== Sys2Proof/Machine/Compare.lean ====
section
/-! DEFINITION. LessThan and Equals (spec/44_compare.md). -/

namespace Sys2Proof.Machine

/-- What LessThan and Equals share (rules R170 and R171): the target check, then 1 or 0 written, and an advance of 4. -/
def compareEffects (outcome : Bool) (s : State) (p2 : Param) : Except Err Effects := do
  let a ← address p2 2
  return { write := some (a, boolWord outcome), pop := false, append := none, next := .goto (s.pc + 4) }

/-- LessThan, operation 7 (rule R170): a signed comparison. -/
def execLessThan (m0 m1 m2 : Mode) (s : State) : Host.Outcome State Fault Refusal :=
  complete s (withArgs3 s m0 m1 m2 fun p0 p1 p2 =>
    compareEffects (decide (value s.mem p0 < value s.mem p1)) s p2)

/-- Equals, operation 8 (rule R171). -/
def execEquals (m0 m1 m2 : Mode) (s : State) : Host.Outcome State Fault Refusal :=
  complete s (withArgs3 s m0 m1 m2 fun p0 p1 p2 =>
    compareEffects (decide (value s.mem p0 = value s.mem p1)) s p2)

end Sys2Proof.Machine
end

