-- ==== Sys2Proof/Machine/InputOutput.lean ====
section
/-! DEFINITION. Input and Output (spec/42_io.md). -/

namespace Sys2Proof.Machine

/-- `Exec_3` (rules R150 and R152): the target check, then the empty-queue check, then the front value goes to the target
and leaves the queue. -/
def inputEffects (s : State) (p0 : Param) : Except Err Effects := do
  let a ← address p0 0
  match s.inQueue with
  | [] => .error .inputExhausted
  | v :: _ => return { write := some (a, v), pop := true, append := none, next := .goto (s.pc + 2) }

/-- The output log holds as many values as it can (rule R11); an unbounded log never does. -/
def logFull (s : State) : Bool :=
  match s.params.outputCapacity with
  | none => false
  | some K => s.outLog.length == K

/-- `Exec_4` (rule R151): append the value, unless the log is full. -/
def outputEffects (s : State) (p0 : Param) : Except Err Effects :=
  if logFull s then .error .outputOverflow
  else .ok { write := none, pop := false, append := some (value s.mem p0), next := .goto (s.pc + 2) }

/-- Input, operation 3 (rule R150). The mode digits of arguments 1 and 2 are unused (rule R83). -/
def execInput (m0 _m1 _m2 : Mode) (s : State) : Host.Outcome State Fault Refusal :=
  complete s (withArgs1 s m0 fun p0 => inputEffects s p0)

/-- Output, operation 4 (rule R151). The mode digits of arguments 1 and 2 are unused (rule R83). -/
def execOutput (m0 _m1 _m2 : Mode) (s : State) : Host.Outcome State Fault Refusal :=
  complete s (withArgs1 s m0 fun p0 => outputEffects s p0)

end Sys2Proof.Machine
end

