-- ==== Sys2Proof/Machine/Jumps.lean ====
section
/-! DEFINITION. JumpIfTrue and JumpIfFalse (spec/43_jumps.md). The jump target is an absolute index, used as given and
not checked when it is stored (rules R119 and R163). -/

namespace Sys2Proof.Machine

/-- A jump that is taken goes to its target word; one that is not goes to the next instruction, 3 words on. -/
def jumpEffects (taken : Bool) (target : Int) (s : State) : Effects :=
  { write := none, pop := false, append := none, next := .goto (if taken then target else s.pc + 3) }

/-- JumpIfTrue, operation 5 (rules R160 and R162). The mode digit of argument 2 is unused (rule R83). -/
def execJumpIfTrue (m0 m1 _m2 : Mode) (s : State) : Host.Outcome State Fault Refusal :=
  complete s (withArgs2 s m0 m1 fun p0 p1 =>
    .ok (jumpEffects (truthy (value s.mem p0)) (value s.mem p1) s))

/-- JumpIfFalse, operation 6 (rules R161 and R162). The mode digit of argument 2 is unused (rule R83). -/
def execJumpIfFalse (m0 m1 _m2 : Mode) (s : State) : Host.Outcome State Fault Refusal :=
  complete s (withArgs2 s m0 m1 fun p0 p1 =>
    .ok (jumpEffects (!truthy (value s.mem p0)) (value s.mem p1) s))

end Sys2Proof.Machine
end

