-- ==== Sys2Proof/Machine/Terminate.lean ====
section
/-! DEFINITION. Terminate (spec/45_terminate.md). -/

namespace Sys2Proof.Machine

/-- Terminate, operation 99 (rule R180): it resolves nothing and only halts. All mode digits are unused (rule R83). -/
def execTerminate (_m0 _m1 _m2 : Mode) (s : State) : Host.Outcome State Fault Refusal :=
  complete s (.ok { write := none, pop := false, append := none, next := .halt })

end Sys2Proof.Machine
end

