-- ==== Sys2Proof/Machine/Dispatch.lean ====
section
/-! DEFINITION. The Instruction Executor's dispatch (rule R115): one arm per operation. -/

namespace Sys2Proof.Machine

def exec (i : Instr) (s : State) : Host.Outcome State Fault Refusal :=
  match i with
  | .add m0 m1 m2 => Sys2Proof.Machine.execAdd m0 m1 m2 s
  | .mul m0 m1 m2 => Sys2Proof.Machine.execMul m0 m1 m2 s
  | .input m0 m1 m2 => Sys2Proof.Machine.execInput m0 m1 m2 s
  | .output m0 m1 m2 => Sys2Proof.Machine.execOutput m0 m1 m2 s
  | .jumpIfTrue m0 m1 m2 => Sys2Proof.Machine.execJumpIfTrue m0 m1 m2 s
  | .jumpIfFalse m0 m1 m2 => Sys2Proof.Machine.execJumpIfFalse m0 m1 m2 s
  | .lessThan m0 m1 m2 => Sys2Proof.Machine.execLessThan m0 m1 m2 s
  | .equals m0 m1 m2 => Sys2Proof.Machine.execEquals m0 m1 m2 s
  | .terminate m0 m1 m2 => Sys2Proof.Machine.execTerminate m0 m1 m2 s

end Sys2Proof.Machine
end

