-- ==== Sys2Proof/Machine/Step.lean ====
section
/-! DEFINITION. One step of the sequencer (spec/40_cycle.md rule R122), and the loading of one instruction where the next
step fetches it. -/

namespace Sys2Proof.Machine

/-- One step: fetch, decode, then the instruction's own resolve, execute and commit (rules R111 and R122). An error of
the fetch or the decode enters Failed (rule R120). A Halted or Failed state has no step (rule R121). -/
def step (s : State) : Host.Outcome State Fault Refusal :=
  match s.runState with
  | .halted => .fault .alreadyHalted
  | .failed => .fault .alreadyFailed
  | .running =>
    match fetch s with
    | .error e => .next (failureEntry s e)
    | .ok w =>
      match decode w with
      | .error e => .next (failureEntry s e)
      | .ok i => exec i s

/-- The state with the table instruction `w` of `nbits` bits, and zeros for the rest of the longest instruction (4
words), stored where the next step fetches. It stands for the host's loading of a program by `create`
(notes/assumptions/5.md): memory is made long enough, a negative `pc` becomes 0, and a stopped instance is Running. -/
def State.withFetchWord (s : State) (nbits w : Nat) : State :=
  { s with
    mem := (s.mem.grow (s.pc.toNat + 4)).writeWords s.pc.toNat
      ((List.range 4).map (tableWord s.params.wordBits nbits w))
    pc := s.pc.toNat
    runState := .running
    err := none }

end Sys2Proof.Machine
end

