-- ==== Sys2Proof/WellFormed.lean ====
section
/-! DEFINITION. What the types do not already guarantee: parameters the spec allows, images and input sequences `create`
accepts, and assembly whose words fit the width.

A term of `Instr` needs no check: an operation and three modes are exactly one of the 72 decodable words (rule R82).
Whether its target is Immediate is not a matter of form; such an instruction decodes and fails when executed (rule R86). -/

namespace Sys2Proof

/-- `W >= 16` (spec/92_eei_decisions.md D1), so that every decodable instruction word is representable. -/
abbrev Params.wf (p : Params) : Prop := 16 ≤ p.wordBits

/-- The longest memory the spec allows: `2^(W-1) - 4` words (rule R9). -/
def maxMemLen (W : Nat) : Nat := 2 ^ (W - 1) - 4

/-- Every element of a sequence given to `create` is a word (rule R130). -/
abbrev WordsFit (W : Nat) (ws : List Int) : Prop := ∀ v ∈ ws, InWord W v

/-- A memory image `create` accepts (rules R9 and R130). -/
abbrev ImageWf (W : Nat) (image : List Int) : Prop :=
  image.length ≤ maxMemLen W ∧ WordsFit W image

/-- An operand's argument word fits (rule R102: "`v` and `a` are decimal words"). -/
abbrev Operand.wf (W : Nat) : Operand → Prop
  | .imm v => InWord W v
  | .pos a => InWord W a

/-- Every word a line of assembly places fits. -/
def Asm.wf (W : Nat) : Asm → Prop
  | .add x y t | .mul x y t | .lessThan x y t | .equals x y t => x.wf W ∧ y.wf W ∧ t.wf W
  | .jumpIfTrue c t | .jumpIfFalse c t => c.wf W ∧ t.wf W
  | .input t => t.wf W
  | .output v => v.wf W
  | .terminate => True
  | .word vs => WordsFit W vs

end Sys2Proof
end

