-- ==== Sys2Proof/Machine/Assembler.lean ====
section
/-! DEFINITION. The assembler and the disassembler (spec/30_encoding.md section 5, rules R101 to R104). -/

namespace Sys2Proof.Machine

/-- The mode an operand is written in (rule R102). -/
def operandMode : Operand → Mode
  | .imm _ => .immediate
  | .pos _ => .position

/-- The argument word an operand stands for (rule R102). -/
def operandWord : Operand → Int
  | .imm v => v
  | .pos a => a

/-- The instruction a line of assembly stands for; the mode digit of an operand it does not have is 0 (rule R103). -/
def instrOfAsm : Asm → Option Instr
  | .add x y t => some (.add (operandMode x) (operandMode y) (operandMode t))
  | .mul x y t => some (.mul (operandMode x) (operandMode y) (operandMode t))
  | .input t => some (.input (operandMode t) .position .position)
  | .output v => some (.output (operandMode v) .position .position)
  | .jumpIfTrue c t => some (.jumpIfTrue (operandMode c) (operandMode t) .position)
  | .jumpIfFalse c t => some (.jumpIfFalse (operandMode c) (operandMode t) .position)
  | .lessThan x y t => some (.lessThan (operandMode x) (operandMode y) (operandMode t))
  | .equals x y t => some (.equals (operandMode x) (operandMode y) (operandMode t))
  | .terminate => some (.terminate .position .position .position)
  | .word _ => none

/-- The words after the instruction word, in order; for `.word`, the words it places (rule R103). -/
def asmOperands : Asm → List Int
  | .add x y t | .mul x y t | .lessThan x y t | .equals x y t => [operandWord x, operandWord y, operandWord t]
  | .jumpIfTrue c t | .jumpIfFalse c t => [operandWord c, operandWord t]
  | .input t => [operandWord t]
  | .output v => [operandWord v]
  | .terminate => []
  | .word vs => vs

/-- Assembly of one line (rule R103). -/
def assemble (l : Asm) : List Int :=
  match instrOfAsm l with
  | some i => encode i :: asmOperands l
  | none => asmOperands l

/-- Assembly of a program: the lines' words in order, from index 0 on. -/
def assembleProgram (lines : List Asm) : List Int := lines.flatMap assemble

/-- The operand a mode and an argument word are written as (rules R102 and R104). -/
def operandOf : Mode → Int → Operand
  | .immediate, v => .imm v
  | .position, a => .pos a

/-- Disassembly of an instruction whose word decodes, with its argument words (rule R104). It gives nothing when the word
does not decode or an argument word is missing. -/
def disassemble : List Int → Option Asm
  | [] => none
  | w :: args =>
    match decode w, args with
    | .ok (.add m0 m1 m2), r0 :: r1 :: r2 :: _ => some (.add (operandOf m0 r0) (operandOf m1 r1) (operandOf m2 r2))
    | .ok (.mul m0 m1 m2), r0 :: r1 :: r2 :: _ => some (.mul (operandOf m0 r0) (operandOf m1 r1) (operandOf m2 r2))
    | .ok (.lessThan m0 m1 m2), r0 :: r1 :: r2 :: _ =>
      some (.lessThan (operandOf m0 r0) (operandOf m1 r1) (operandOf m2 r2))
    | .ok (.equals m0 m1 m2), r0 :: r1 :: r2 :: _ =>
      some (.equals (operandOf m0 r0) (operandOf m1 r1) (operandOf m2 r2))
    | .ok (.jumpIfTrue m0 m1 _), r0 :: r1 :: _ => some (.jumpIfTrue (operandOf m0 r0) (operandOf m1 r1))
    | .ok (.jumpIfFalse m0 m1 _), r0 :: r1 :: _ => some (.jumpIfFalse (operandOf m0 r0) (operandOf m1 r1))
    | .ok (.input m0 _ _), r0 :: _ => some (.input (operandOf m0 r0))
    | .ok (.output m0 _ _), r0 :: _ => some (.output (operandOf m0 r0))
    | .ok (.terminate _ _ _), _ => some .terminate
    | _, _ => none

/-- An operand's text (rule R102). -/
def operandText : Operand → String
  | .imm v => "#" ++ toString v
  | .pos a => "[" ++ toString a ++ "]"

/-- The mnemonic of an operation (rule R101). -/
def mnemonic : Instr → String
  | .add _ _ _ => "Add"
  | .mul _ _ _ => "Mul"
  | .input _ _ _ => "Input"
  | .output _ _ _ => "Output"
  | .jumpIfTrue _ _ _ => "JumpIfTrue"
  | .jumpIfFalse _ _ _ => "JumpIfFalse"
  | .lessThan _ _ _ => "LessThan"
  | .equals _ _ _ => "Equals"
  | .terminate _ _ _ => "Terminate"

/-- The operands of a line, in argument order. -/
def asmOperandTexts : Asm → List String
  | .add x y t | .mul x y t | .lessThan x y t | .equals x y t => [operandText x, operandText y, operandText t]
  | .jumpIfTrue c t | .jumpIfFalse c t => [operandText c, operandText t]
  | .input t => [operandText t]
  | .output v => [operandText v]
  | .terminate => []
  | .word vs => vs.map toString

/-- A line's text (rules R101 to R103): the mnemonic, then the operands separated by commas. -/
def asmText (l : Asm) : String :=
  let head :=
    match instrOfAsm l with
    | some i => mnemonic i
    | none => ".word"
  match asmOperandTexts l with
  | [] => head
  | ops => head ++ " " ++ ", ".intercalate ops

end Sys2Proof.Machine
end

