-- ==== Sys2Proof/Machine/HostInterface.lean ====
section
/-! DEFINITION. What the host can do to an instance and see of it (spec/40_cycle.md section 3): `create`, `run`,
`output`, `final_memory`, chaining, and the STATUS and ERR_VALUE registers (spec/10_state.md rule R33).

The host has no move during a run (rule R132). -/

namespace Sys2Proof.Machine

/-- Why `create` refuses (rules R9 and R130; spec/92_eei_decisions.md D1, D3, D25). The spec gives the grounds; their
names and the order they are tested in are the model's. DESIGN CHOICE (notes/assumptions/15.md). -/
inductive CreateRefusal where
  | wordTooNarrow
  | imageTooLong
  | imageWordOutOfRange
  | inputWordOutOfRange
  deriving DecidableEq, Repr

/-- `create(memory, initial_input)` (rules R130, R220 and R221), the only reset there is. -/
def create (p : Params) (image input : List Int) : Except CreateRefusal State :=
  if ¬ p.wf then .error .wordTooNarrow
  else if ¬ image.length ≤ maxMemLen p.wordBits then .error .imageTooLong
  else if ¬ WordsFit p.wordBits image then .error .imageWordOutOfRange
  else if ¬ WordsFit p.wordBits input then .error .inputWordOutOfRange
  else .ok
    { params := p
      mem := Memory.ofWords image
      pc := 0
      inQueue := input
      outLog := []
      runState := .running
      err := none }

/-- What `run()` returns (rule R131). -/
inductive RunResult where
  | halted
  | failed (e : Err)
  deriving DecidableEq, Repr

/-- The result a state stands for (rules R131 and R138): none while Running. -/
def runResult (s : State) : Option RunResult :=
  match s.runState with
  | .running => none
  | .halted => some .halted
  | .failed => s.err.map .failed

/-- At most `fuel` steps of `run()` (rules R131 and R138): step while there is a step. The fuel is outside the hardware
(rule R125): a state still Running when it is spent has no result, neither Halted nor Failed. -/
def runFor : Nat → State → State
  | 0, s => s
  | fuel + 1, s =>
    match step s with
    | .next t => runFor fuel t
    | .fault _ => s
    | .refused _ => s

/-- `output()` (rule R133): valid at any time, and it changes nothing. -/
def output (s : State) : List Int := s.outLog

/-- `final_memory()` (rule R134): valid after Halted, defined by the spec's model after Failed (spec/92_eei_decisions.md
D23), not defined while Running. -/
def finalMemory (s : State) : Option (List Int) :=
  match s.runState with
  | .running => none
  | .halted => some s.mem.toWords
  | .failed => some s.mem.toWords

/-- Why a chained instance is not built: the producer has not halted (rules R65 and R135), or `create` refuses. -/
inductive ChainRefusal where
  | producerNotHalted
  | create (r : CreateRefusal)
  deriving DecidableEq, Repr

/-- Chaining (rules R65 and R135): once the producer has Halted, a new instance whose input starts with the producer's
full output log. -/
def chain (producer : State) (p : Params) (image more : List Int) : Except ChainRefusal State :=
  if producer.runState = .halted then
    match create p image (producer.outLog ++ more) with
    | .ok s => .ok s
    | .error r => .error (.create r)
  else .error .producerNotHalted

/-- STATUS.STATE (rule R33). -/
def RunState.code : RunState → BitVec 2
  | .running => 0
  | .halted => 1
  | .failed => 2

/-- STATUS.ERR_CODE (rule R33): 0 when there is no error. -/
def errCode (s : State) : BitVec 6 :=
  match s.err with
  | some e => e.code
  | none => 0

/-- STATUS.ERR_ARG (rule R33): 3 when there is no error. -/
def errArg (s : State) : BitVec 2 :=
  match s.err with
  | some e => e.arg
  | none => 3

/-- The STATUS register (rule R33): reserved `[15:10]`, ERR_ARG `[9:8]`, ERR_CODE `[7:2]`, STATE `[1:0]`. -/
def statusReg (s : State) : BitVec 16 := (0 : BitVec 6) ++ errArg s ++ errCode s ++ s.runState.code

/-- The ERR_VALUE register (rule R33): the word the error carries, 0 without one. -/
def errValueReg (s : State) : Int :=
  match s.err with
  | some e => e.value
  | none => 0

end Sys2Proof.Machine
end

