-- ==== Sys2Proof/Safety.lean ====
section
/-! DEFINITION. The words statements are made in: the invariant of every constructed instance, what makes an argument
ready, which errors an instruction can raise, and what a safe run is.

The argument words and operand values are written here a second time, straight from rules R70, R73 and R93 to R96, so
that a statement about an instruction does not lean on the Resolver it is a statement about. -/

namespace Sys2Proof.Machine

/-- Argument `i`'s word, `mem[pc + 1 + i]` (rule R70). -/
def argWord (s : State) (i : Fin 3) : Int := s.mem.cell (s.pc + 1 + i.val).toNat

/-- Argument `i` resolves in mode `m` at a pointer that can be fetched from: its word lies in memory, and a Position word
is a memory index (rules R93 to R95). -/
abbrev ArgReady (s : State) (i : Fin 3) (m : Mode) : Prop :=
  0 ≤ s.pc ∧ s.pc + 1 + i.val < s.mem.length ∧ (m = .position → s.mem.InRange (argWord s i))

/-- The value of source argument `i` in mode `m` (rule R96). -/
def operandValue (s : State) (i : Fin 3) (m : Mode) : Int :=
  match m with
  | .immediate => argWord s i
  | .position => s.mem.cell (argWord s i).toNat

/-- The memory index a Position target argument names (rules R95 and R97). -/
def targetIndex (s : State) (i : Fin 3) : Nat := (argWord s i).toNat

/-- Failure with error `e`, written out: `state` and `err`, and nothing else (rule R120). -/
def failedWith (s : State) (e : Err) : State := { s with runState := .failed, err := some e }

/-- The step's instruction: the Running state `s` fetches a word in range that decodes to `i`. -/
abbrev Fetches (s : State) (i : Instr) : Prop :=
  s.runState = .running ∧ s.mem.InRange s.pc ∧ decode (s.mem.cell s.pc.toNat) = .ok i

/-- The exact result of an arithmetic operation on the values of arguments 0 and 1 (rule R142). -/
def exactResult (op : ArithOp) (i : Instr) (s : State) : Int :=
  match op with
  | .add => operandValue s 0 (i.mode 0) + operandValue s 1 (i.mode 1)
  | .mul => operandValue s 0 (i.mode 0) * operandValue s 1 (i.mode 1)

/-- The resolve and execute stages of instruction `i` have cause to raise `e` in state `s`: the error is one the
instruction has (rules R191 and R192), its cause holds and its payload is the one that names it (rule R190). -/
def MayRaise (i : Instr) (s : State) (e : Err) : Prop :=
  match e with
  | .operandFetchOutOfBounds k a => k.val < i.nargs ∧ a = s.pc + 1 + k.val ∧ s.mem.length ≤ a
  | .positionOutOfBounds k r => k.val < i.nargs ∧ i.mode k = .position ∧ r = argWord s k ∧ ¬ s.mem.InRange r
  | .immediateTargetParam k => i.targetArg = some k ∧ i.mode k = .immediate
  | .inputExhausted => i.operation = 3 ∧ s.inQueue = []
  | .arithmeticOverflow op => i.operation = op.number ∧ s.params.overflowMode = .fault ∧
      ¬ InWord s.params.wordBits (exactResult op i s)
  | .outputOverflow => i.operation = 4 ∧ s.params.outputCapacity = some s.outLog.length
  | .pcOutOfBounds _ | .invalidOpCode _ | .invalidParamMode _ _ => False

/-- The payload of an error is what rule R190 allows: its word fits, a bad mode digit is 2 to 9. -/
def Err.Fits (W : Nat) (e : Err) : Prop :=
  InWord W e.value ∧
    match e with
    | .invalidParamMode _ m => 2 ≤ m ∧ m ≤ 9
    | _ => True

/-- The invariant of every constructed instance: what holds after `create` and what every step keeps. -/
structure State.Inv (s : State) : Prop where
  /-- `W >= 16` (spec/92_eei_decisions.md D1). -/
  params_wf : s.params.wf
  /-- Memory keeps its canonical form. -/
  mem_wf : s.mem.wf
  /-- `N <= 2^(W-1) - 4` (rule R9). -/
  mem_len : s.mem.length ≤ maxMemLen s.params.wordBits
  /-- Every memory cell holds a word (rule R21). -/
  mem_words : ∀ a, InWord s.params.wordBits (s.mem.cell a)
  /-- The instruction pointer is a word (rules R24 and R27). -/
  pc_word : InWord s.params.wordBits s.pc
  /-- The queue holds words (rule R28). -/
  queue_words : WordsFit s.params.wordBits s.inQueue
  /-- The log holds words (rule R29). -/
  log_words : WordsFit s.params.wordBits s.outLog
  /-- The log never exceeds its capacity (rule R11). -/
  log_fits : ∀ K, s.params.outputCapacity = some K → s.outLog.length ≤ K
  /-- There is an error exactly in Failed (rule R32). -/
  err_iff : s.err.isSome ↔ s.runState = .failed
  /-- The recorded error is one rule R190 allows. -/
  err_fits : ∀ e, s.err = some e → e.Fits s.params.wordBits

/-- A safe step: there is one, and it does not fail. -/
def SafeStep (s : State) : Prop := ∃ t, step s = .next t ∧ t.runState ≠ .failed

/-- A safe run: an instance that, whatever the fuel, is never Failed. -/
def SafeRun (s : State) : Prop := ∀ fuel, (runFor fuel s).runState ≠ .failed

end Sys2Proof.Machine
end

