-- ==== Sys2Proof/Certificates/Slice0/Obligations.lean ====
section
/-! DEFINITION. The statements for the provers. Each docstring names the rules of spec/ it formalises; one that rests on a
choice of the model says so. -/

open Sys2Proof Sys2Proof.Machine

/-! ### Encoding -/

/-- Rules R71, R77, R78 and R80: the Decoder accepts a word as an instruction exactly when the word is that instruction's
encoding; so decoding an encoded instruction gives it back, and no two words decode to one instruction. -/
def Obligations.DecodeAcceptsExactlyTheEncoding : Prop :=
  ∀ (w : Int) (i : Instr), decode w = .ok i ↔ w = encode i

/-- Rule R82: exactly 72 instruction words decode, the smallest 1 and the largest 11199; they are the words
`op + 100*A + 1000*B + 10000*C` of the nine operations, and every other word raises an error. -/
def Obligations.SeventyTwoWordsDecode : Prop :=
  ∃ words : List Int,
    words.Nodup ∧ words.length = 72 ∧ (1 : Int) ∈ words ∧ (11199 : Int) ∈ words ∧
    (∀ w ∈ words, 1 ≤ w ∧ w ≤ 11199) ∧
    ∀ w : Int,
      ((∃ i, decode w = .ok i) ↔ w ∈ words) ∧
      (w ∈ words ↔ ∃ op ∈ ([1, 2, 3, 4, 5, 6, 7, 8, 99] : List Int), ∃ A ∈ ([0, 1] : List Int),
        ∃ B ∈ ([0, 1] : List Int), ∃ C ∈ ([0, 1] : List Int), w = op + 100 * A + 1000 * B + 10000 * C) ∧
      (w ∉ words → ∃ e, decode w = .error e)

/-- Rules R74, R75, R78 and R79: the Decoder's checks and their order, in the arithmetic of the rules: first the range,
then the mode digits of arguments 0, 1, 2, then the operation. -/
def Obligations.DecoderChecksRangeThenModesThenOperation : Prop :=
  ∀ w : Int,
    (w < 0 ∨ 100000 ≤ w → decode w = .error (.invalidOpCode w)) ∧
    (0 ≤ w → w < 100000 →
      (∀ k : Fin 3, (∀ j : Fin 3, j < k → w / 10 ^ (2 + j.val) % 10 ≤ 1) → 2 ≤ w / 10 ^ (2 + k.val) % 10 →
        decode w = .error (.invalidParamMode k (w / 10 ^ (2 + k.val) % 10).toNat)) ∧
      ((∀ j : Fin 3, w / 10 ^ (2 + j.val) % 10 ≤ 1) →
        (¬ (1 ≤ w % 100 ∧ w % 100 ≤ 8 ∨ w % 100 = 99) → decode w = .error (.invalidOpCode w)) ∧
        (1 ≤ w % 100 ∧ w % 100 ≤ 8 ∨ w % 100 = 99 → ∃ i, decode w = .ok i ∧ (i.operation : Int) = w % 100 ∧
          ∀ j : Fin 3, i.mode j = if w / 10 ^ (2 + j.val) % 10 = 1 then .immediate else .position)))

/-- Rule R77: field extraction exists for every operation value 0 to 99, supported or not. -/
def Obligations.FieldsAreExtractedForEveryOperation : Prop :=
  ∀ (op : Nat) (m0 m1 m2 : Mode), op ≤ 99 →
    extractFields (op + 100 * m0.digit + 1000 * m1.digit + 10000 * m2.digit) =
      .ok { operation := op, arg0Mode := m0, arg1Mode := m1, arg2Mode := m2 }

/-- Words written out from the encoding of rule R71 decode to what they stand for: at least one per family, with the
source's own vectors of fields (spec/95_test_vectors.md W1 to W4, V-D-1 to V-D-10). -/
def Obligations.WrittenOutWordsDecode : Prop :=
  decode 1 = .ok (.add .position .position .position) ∧
  decode 1002 = .ok (.mul .position .immediate .position) ∧
  decode 3 = .ok (.input .position .position .position) ∧
  decode 104 = .ok (.output .immediate .position .position) ∧
  decode 1105 = .ok (.jumpIfTrue .immediate .immediate .position) ∧
  decode 106 = .ok (.jumpIfFalse .immediate .position .position) ∧
  decode 10007 = .ok (.lessThan .position .position .immediate) ∧
  decode 1108 = .ok (.equals .immediate .immediate .position) ∧
  decode 11199 = .ok (.terminate .immediate .immediate .immediate) ∧
  extractFields 10010 = .ok ⟨10, .position, .position, .immediate⟩ ∧
  extractFields 1009 = .ok ⟨9, .position, .immediate, .position⟩ ∧
  extractFields 188 = .ok ⟨88, .immediate, .position, .position⟩ ∧
  extractFields 11111 = .ok ⟨11, .immediate, .immediate, .immediate⟩

/-- Rules R73, R81 and R84: the Decoder block delivers an output exactly for a word that decodes, with that instruction's
operation, its three modes, its argument count and its length, and otherwise the decode error; and the argument count and
the length are a function of the operation alone. -/
def Obligations.LengthIsAFunctionOfTheOperation : Prop :=
  ∀ w : Int,
    (∀ i : Instr, decode w = .ok i → ∃ o : DecoderOutput, decoderBlock w = .ok o ∧
      o.opcode = ⟨i.operation, i.mode 0, i.mode 1, i.mode 2⟩ ∧ o.nargs = i.nargs ∧ o.length = i.length) ∧
    (∀ e : Err, decode w = .error e → decoderBlock w = .error e) ∧
    (∀ o : DecoderOutput, decoderBlock w = .ok o →
      (o.opcode.operation : Int) = w % 100 ∧ o.length = 1 + o.nargs ∧
      (w % 100 = 1 ∨ w % 100 = 2 ∨ w % 100 = 7 ∨ w % 100 = 8 → o.length = 4) ∧
      (w % 100 = 3 ∨ w % 100 = 4 → o.length = 2) ∧
      (w % 100 = 5 ∨ w % 100 = 6 → o.length = 3) ∧
      (w % 100 = 99 → o.length = 1))

/-- Rule R83: two words of one operation that agree in the mode digits of the arguments it has do the same in every
state. -/
def Obligations.UnusedModeDigitsChangeNothing : Prop :=
  ∀ (w w' : Int) (i i' : Instr), decode w = .ok i → decode w' = .ok i' → w % 100 = w' % 100 →
    (∀ k : Fin 3, k.val < i.nargs → w / 10 ^ (2 + k.val) % 10 = w' / 10 ^ (2 + k.val) % 10) →
    ∀ s : State, exec i s = exec i' s

/-- Rules R101 to R104: disassembling an assembled instruction gives it back, whatever words follow; and its first word
is the encoding with 0 for each operand it does not have. -/
def Obligations.DisassemblyInvertsAssembly : Prop :=
  ∀ (l : Asm) (i : Instr) (rest : List Int), instrOfAsm l = some i →
    disassemble (assemble l ++ rest) = some l ∧ (assemble l).length = i.length ∧ (assemble l).head? = some (encode i) ∧
    ∀ k : Fin 3, i.nargs ≤ k.val → i.mode k = .position

/-! ### Memory -/

/-- Rules R13, R54 and R56: a read gives the word last written there, a write changes the one word written, and a write
out of range changes nothing. -/
def Obligations.MemoryWordIsTheLastWritten : Prop :=
  ∀ (m : Memory) (a b : Nat) (v : Int),
    (m.write a v).length = m.length ∧
    (a < m.length → (m.write a v).cell b = if b = a then v else m.cell b) ∧
    (m.length ≤ a → m.write a v = m)

/-- The canonical form (the model's choice, notes/assumptions/6.md): two memories of one length that read alike are one
memory; so writing back the word that stands there changes nothing, and writes at different indices commute. -/
def Obligations.EqualReadsMeanEqualMemory : Prop :=
  ∀ m : Memory, m.wf →
    (∀ m' : Memory, m'.wf → m'.length = m.length → (∀ a, m'.cell a = m.cell a) → m' = m) ∧
    (∀ a, m.write a (m.cell a) = m) ∧
    (∀ (a b : Nat) (v w : Int), a ≠ b → (m.write a v).write b w = (m.write b w).write a v)

/-- Rule R22 with rules R9 and R134: the memory built from an image holds the image, word for word. -/
def Obligations.ConstructedMemoryHoldsTheImage : Prop :=
  ∀ image : List Int,
    (Memory.ofWords image).length = image.length ∧
    (∀ (k : Nat) (h : k < image.length), (Memory.ofWords image).cell k = image[k]) ∧
    (Memory.ofWords image).toWords = image

/-! ### The step -/

/-- Rules R111 and R122: a Running step whose fetched word decodes runs that instruction, and the machine is this step. -/
def Obligations.StepRunsTheDecodedInstruction : Prop :=
  (∀ (s : State) (i : Instr), s.runState = .running → 0 ≤ s.pc → s.pc < s.mem.length →
    decode (s.mem.cell s.pc.toNat) = .ok i → step s = exec i s) ∧
  Sys2Proof.core.step = step

/-- Rule R112: a fetch in memory reads the word at `pc` as it is now, and a fetch outside memory fails the run with
`PcOutOfBounds(pc)`. -/
def Obligations.FetchReadsMemoryOrFails : Prop :=
  ∀ s : State,
    (0 ≤ s.pc → s.pc < s.mem.length → fetch s = .ok (s.mem.cell s.pc.toNat)) ∧
    (s.runState = .running → (s.pc < 0 ∨ s.mem.length ≤ s.pc) →
      step s = .next (failedWith s (.pcOutOfBounds s.pc)))

/-- Rule R85: executing an illegal encoding fails the run, and only an illegal encoding fails it with a decode error: a
negative word or one of at least 100000, or an operation 0 or 9 to 98 (`InvalidOpCode`), or a mode digit 2 to 9
(`InvalidParamMode`). -/
def Obligations.IllegalEncodingsFailTheRun : Prop :=
  ∀ s : State, s.runState = .running → s.mem.InRange s.pc →
    let w := s.mem.cell s.pc.toNat
    ((∃ k m, step s = .next (failedWith s (.invalidParamMode k m))) ↔
      0 ≤ w ∧ w < 100000 ∧ ∃ k : Fin 3, 2 ≤ w / 10 ^ (2 + k.val) % 10) ∧
    ((∃ v, step s = .next (failedWith s (.invalidOpCode v))) ↔
      w < 0 ∨ 100000 ≤ w ∨
        ((∀ k : Fin 3, w / 10 ^ (2 + k.val) % 10 ≤ 1) ∧ (w % 100 = 0 ∨ 9 ≤ w % 100 ∧ w % 100 ≤ 98)))

/-- A state has a step exactly when it is Running: a Running one by rules R122 and R123, a Halted or Failed one has none by
rule R121. The two names under which `step` stops there, `alreadyHalted` and `alreadyFailed`, are the model's
(notes/assumptions/7.md). No step is refused. -/
def Obligations.OnlyRunningStatesStep : Prop :=
  ∀ s : State,
    ((∃ t, step s = .next t) ↔ s.runState = .running) ∧
    (s.runState = .halted → step s = .fault .alreadyHalted) ∧
    (s.runState = .failed → step s = .fault .alreadyFailed)

/-- Rule R120: a step that fails records the error and enters Failed, and nothing else changes. -/
def Obligations.FailureChangesOnlyStateAndErr : Prop :=
  ∀ s t : State, step s = .next t → t.runState = .failed →
    ∃ e, t = { s with runState := .failed, err := some e }

/-- The failure is precise (rules R25 and R197): the state a failing step leaves, set Running again, fails in the same way
with the same error, since `pc` still holds the index of the instruction that failed. -/
def Obligations.FailedInstructionFailsAgain : Prop :=
  ∀ s t : State, step s = .next t → t.runState = .failed →
    t.pc = s.pc ∧ step { t with runState := .running, err := none } = .next t

/-- Rules R118, R180 and R181: only Terminate halts, and it changes nothing but `state`. -/
def Obligations.OnlyTerminateHalts : Prop :=
  ∀ s t : State, step s = .next t → t.runState = .halted →
    (∃ m0 m1 m2, Fetches s (.terminate m0 m1 m2)) ∧ t = { s with runState := .halted }

/-- Rule R118: the pointer update. A step that stays Running advances `pc` by 4, 2 or 3, or loads a taken jump's target
value; a step that halts or fails leaves `pc`. -/
def Obligations.PointerMovesOnlyAsTheTableSays : Prop :=
  ∀ s t : State, step s = .next t →
    (t.runState = .halted → ∃ i, Fetches s i ∧ i.operation = 99 ∧ t.pc = s.pc) ∧
    (t.runState = .failed → t.pc = s.pc) ∧
    (t.runState = .running → ∃ i, Fetches s i ∧
      ((i.operation = 1 ∨ i.operation = 2 ∨ i.operation = 7 ∨ i.operation = 8) ∧ t.pc = s.pc + 4 ∨
       (i.operation = 3 ∨ i.operation = 4) ∧ t.pc = s.pc + 2 ∨
       i.operation = 5 ∧
         t.pc = (if 0 < operandValue s 0 (i.mode 0) then operandValue s 1 (i.mode 1) else s.pc + 3) ∨
       i.operation = 6 ∧
         t.pc = (if 0 < operandValue s 0 (i.mode 0) then s.pc + 3 else operandValue s 1 (i.mode 1))))

/-- Rules R190, R191 and R192: after a successful decode, an instruction fails only with an error its rule lists, whose
cause holds and whose payload is that cause's. -/
def Obligations.EachInstructionRaisesOnlyItsErrors : Prop :=
  ∀ (s t : State) (i : Instr), Fetches s i → step s = .next t → t.runState = .failed →
    ∃ e, t.err = some e ∧ MayRaise i s e

/-- Rules R29 and R30: only Output changes the log, and it appends the one value it reads. -/
def Obligations.OnlyOutputAppendsToTheLog : Prop :=
  ∀ s t : State, step s = .next t → t.outLog ≠ s.outLog →
    ∃ m0 m1 m2, Fetches s (.output m0 m1 m2) ∧ t.outLog = s.outLog ++ [operandValue s 0 m0]

/-- Rules R28, R30 and R132: only Input changes the queue, and it removes the front value. -/
def Obligations.OnlyInputConsumesTheQueue : Prop :=
  ∀ s t : State, step s = .next t → t.inQueue ≠ s.inQueue →
    ∃ m1 m2 v, Fetches s (.input .position m1 m2) ∧ s.inQueue = v :: t.inQueue ∧
      t.mem = s.mem.write (targetIndex s 0) v

/-- Rules R60 and R73: a step changes no memory word but the target of the Add, Mul, Input, LessThan or Equals it runs. -/
def Obligations.OnlyTheTargetWordChanges : Prop :=
  ∀ (s t : State) (a : Nat), step s = .next t → t.mem.cell a ≠ s.mem.cell a →
    ∃ i k, Fetches s i ∧ i.targetArg = some k ∧ i.mode k = .position ∧ a = targetIndex s k ∧ a < s.mem.length ∧
      t.runState = .running

/-- Rule R21 (the length "never changes after construction") and spec/00_scope.md section 3 (each parameter is fixed for
the life of the instance), over any run. -/
def Obligations.LengthAndParametersNeverChange : Prop :=
  ∀ (fuel : Nat) (s : State),
    (runFor fuel s).params = s.params ∧ (runFor fuel s).mem.length = s.mem.length ∧
    (s.mem.wf → (runFor fuel s).mem.wf)

/-- Rules R63 and R231: a word that an instruction writes at the next `pc` is what the next step decodes, with nothing
between; for Add writing the word after itself, and for Input writing the word after itself. -/
def Obligations.WrittenInstructionWordRunsNext : Prop :=
  (∀ (s : State) (m0 m1 : Mode) (j : Instr), Fetches s (.add m0 m1 .position) → ArgReady s 0 m0 → ArgReady s 1 m1 →
    ArgReady s 2 .position → (targetIndex s 2 : Int) = s.pc + 4 →
    InWord s.params.wordBits (operandValue s 0 m0 + operandValue s 1 m1) →
    decode (operandValue s 0 m0 + operandValue s 1 m1) = .ok j →
    ∃ t, step s = .next t ∧ t.pc = s.pc + 4 ∧ step t = exec j t) ∧
  (∀ (s : State) (m1 m2 : Mode) (j : Instr) (v : Int) (rest : List Int), Fetches s (.input .position m1 m2) →
    ArgReady s 0 .position → (targetIndex s 0 : Int) = s.pc + 2 → s.inQueue = v :: rest → decode v = .ok j →
    ∃ t, step s = .next t ∧ t.pc = s.pc + 2 ∧ step t = exec j t)

/-- The loading of one instruction where the next step fetches it (the model's own operation, notes/assumptions/5.md and
11.md): the next step runs exactly that instruction, with zeros for the words the bits do not reach. -/
def Obligations.LoadedInstructionRunsNext : Prop :=
  ∀ (s : State) (nbits w : Nat) (i : Instr), decode (tableWord s.params.wordBits nbits w 0) = .ok i →
    let t := s.withFetchWord nbits w
    step t = exec i t ∧ t.inQueue = s.inQueue ∧ t.outLog = s.outLog ∧ t.params = s.params ∧
    (∀ k : Fin 4, t.mem.cell (s.pc.toNat + k.val) = tableWord s.params.wordBits nbits w k.val) ∧
    ∀ a, a < s.pc.toNat ∨ s.pc.toNat + 4 ≤ a → t.mem.cell a = s.mem.cell a

/-! ### Resolution -/

/-- Rules R91, R93 and R95: the first declared argument that does not resolve fails the instruction, whatever the
instruction, whether or not it would use the value: a word beyond the end of memory with `OperandFetchOutOfBounds`, a
Position word outside memory with `PositionOutOfBounds`. -/
def Obligations.FirstUnresolvedArgumentFailsTheInstruction : Prop :=
  ∀ (i : Instr) (s : State) (k : Fin 3), k.val < i.nargs → 0 ≤ s.pc →
    (∀ j : Fin 3, j < k → ArgReady s j (i.mode j)) →
    (s.mem.length ≤ s.pc + 1 + k.val →
      exec i s = .next (failedWith s (.operandFetchOutOfBounds k (s.pc + 1 + k.val)))) ∧
    (s.pc + 1 + k.val < s.mem.length → i.mode k = .position →
      (argWord s k < 0 ∨ s.mem.length ≤ argWord s k) →
      exec i s = .next (failedWith s (.positionOutOfBounds k (argWord s k))))

/-- Rules R93 to R96: a ready Immediate argument is its word, a ready Position argument is the memory word it names. -/
def Obligations.ReadyArgumentResolvesToItsValue : Prop :=
  ∀ (s : State) (i : Fin 3) (m : Mode), ArgReady s i m →
    ∃ p, resolve s i m = .ok p ∧ value s.mem p = operandValue s i m ∧
      (m = .immediate → p = .immediate (argWord s i)) ∧
      (m = .position → p = .position (argWord s i).toNat ∧ (argWord s i).toNat < s.mem.length)

/-- Rules R97, R143 and R152: an Immediate target raises `ImmediateTargetParam` after all arguments are resolved and
before the instruction's own check, so whether or not the result overflows or the queue is empty. -/
def Obligations.ImmediateTargetFailsBeforeOwnChecks : Prop :=
  (∀ (s : State) (m0 m1 : Mode), ArgReady s 0 m0 → ArgReady s 1 m1 → ArgReady s 2 .immediate →
    exec (.add m0 m1 .immediate) s = .next (failedWith s (.immediateTargetParam 2)) ∧
    exec (.mul m0 m1 .immediate) s = .next (failedWith s (.immediateTargetParam 2)) ∧
    exec (.lessThan m0 m1 .immediate) s = .next (failedWith s (.immediateTargetParam 2)) ∧
    exec (.equals m0 m1 .immediate) s = .next (failedWith s (.immediateTargetParam 2))) ∧
  (∀ (s : State) (m1 m2 : Mode), ArgReady s 0 .immediate →
    exec (.input .immediate m1 m2) s = .next (failedWith s (.immediateTargetParam 0)))

/-! ### The instructions: what each one does, for every state its operands are ready in -/

/-- Rules R140 and R142: Add completes with the exact sum when it fits, with the sum reduced modulo `2^W` when it does not
and `OVERFLOW_MODE = Wrap`, and fails with `ArithmeticOverflow(1)` when it does not and `OVERFLOW_MODE = Fault`. -/
def Obligations.AddWritesTheNarrowedSum : Prop :=
  ∀ (s : State) (m0 m1 : Mode), ArgReady s 0 m0 → ArgReady s 1 m1 → ArgReady s 2 .position →
    let sum := operandValue s 0 m0 + operandValue s 1 m1
    (InWord s.params.wordBits sum →
      exec (.add m0 m1 .position) s =
        .next { s with mem := s.mem.write (targetIndex s 2) sum, pc := s.pc + 4 }) ∧
    (¬ InWord s.params.wordBits sum → s.params.overflowMode = .wrap →
      ∃ v, InWord s.params.wordBits v ∧ (2 : Int) ^ s.params.wordBits ∣ v - sum ∧
        exec (.add m0 m1 .position) s =
          .next { s with mem := s.mem.write (targetIndex s 2) v, pc := s.pc + 4 }) ∧
    (¬ InWord s.params.wordBits sum → s.params.overflowMode = .fault →
      exec (.add m0 m1 .position) s = .next (failedWith s (.arithmeticOverflow .add)))

/-- Rules R141 and R142: Mul, as Add with the exact product. -/
def Obligations.MulWritesTheNarrowedProduct : Prop :=
  ∀ (s : State) (m0 m1 : Mode), ArgReady s 0 m0 → ArgReady s 1 m1 → ArgReady s 2 .position →
    let product := operandValue s 0 m0 * operandValue s 1 m1
    (InWord s.params.wordBits product →
      exec (.mul m0 m1 .position) s =
        .next { s with mem := s.mem.write (targetIndex s 2) product, pc := s.pc + 4 }) ∧
    (¬ InWord s.params.wordBits product → s.params.overflowMode = .wrap →
      ∃ v, InWord s.params.wordBits v ∧ (2 : Int) ^ s.params.wordBits ∣ v - product ∧
        exec (.mul m0 m1 .position) s =
          .next { s with mem := s.mem.write (targetIndex s 2) v, pc := s.pc + 4 }) ∧
    (¬ InWord s.params.wordBits product → s.params.overflowMode = .fault →
      exec (.mul m0 m1 .position) s = .next (failedWith s (.arithmeticOverflow .mul)))

/-- Rule R142: an exact result in range is kept; out of range it raises `ArithmeticOverflow(op)` in mode Fault, and in
mode Wrap is the one word of the width that is equal to it modulo `2^W`. -/
def Obligations.NarrowKeepsFaultsOrWraps : Prop :=
  ∀ (p : Params) (op : ArithOp) (x : Int), p.wf →
    (InWord p.wordBits x → narrow p op x = .ok x) ∧
    (¬ InWord p.wordBits x → p.overflowMode = .fault → narrow p op x = .error (.arithmeticOverflow op)) ∧
    (¬ InWord p.wordBits x → p.overflowMode = .wrap →
      ∀ v : Int, narrow p op x = .ok v ↔ (InWord p.wordBits v ∧ (2 : Int) ^ p.wordBits ∣ v - x))

/-- Rule R150: Input moves the front of the queue to its target; an empty queue fails with `InputExhausted`. -/
def Obligations.InputStoresTheFrontOfTheQueue : Prop :=
  ∀ (s : State) (m1 m2 : Mode), ArgReady s 0 .position →
    (∀ (v : Int) (rest : List Int), s.inQueue = v :: rest →
      exec (.input .position m1 m2) s =
        .next { s with mem := s.mem.write (targetIndex s 0) v, inQueue := rest, pc := s.pc + 2 }) ∧
    (s.inQueue = [] → exec (.input .position m1 m2) s = .next (failedWith s .inputExhausted))

/-- Rules R151 and R11: Output appends its value, unless a bounded log already holds its capacity of values; then it
fails with `OutputOverflow`. -/
def Obligations.OutputAppendsItsValue : Prop :=
  ∀ (s : State) (m0 m1 m2 : Mode), ArgReady s 0 m0 →
    ((∀ K, s.params.outputCapacity = some K → s.outLog.length ≠ K) →
      exec (.output m0 m1 m2) s =
        .next { s with outLog := s.outLog ++ [operandValue s 0 m0], pc := s.pc + 2 }) ∧
    (∀ K, s.params.outputCapacity = some K → s.outLog.length = K →
      exec (.output m0 m1 m2) s = .next (failedWith s .outputOverflow))

/-- Rules R160, R161 and R162: a condition is truthy exactly when it is strictly greater than zero. JumpIfTrue jumps on a
positive condition and not on zero or a negative one; JumpIfFalse the other way round. The target is used as given, in
memory or not; a jump not taken advances by 3. -/
def Obligations.JumpsTestForStrictlyPositive : Prop :=
  ∀ (s : State) (m0 m1 m2 : Mode), ArgReady s 0 m0 → ArgReady s 1 m1 →
    (0 < operandValue s 0 m0 →
      exec (.jumpIfTrue m0 m1 m2) s = .next { s with pc := operandValue s 1 m1 } ∧
      exec (.jumpIfFalse m0 m1 m2) s = .next { s with pc := s.pc + 3 }) ∧
    (operandValue s 0 m0 ≤ 0 →
      exec (.jumpIfTrue m0 m1 m2) s = .next { s with pc := s.pc + 3 } ∧
      exec (.jumpIfFalse m0 m1 m2) s = .next { s with pc := operandValue s 1 m1 })

/-- Rules R119 and R163: a taken jump to a target outside memory completes, and the next step's fetch fails with
`PcOutOfBounds` of that target. -/
def Obligations.JumpOutsideMemoryFailsAtTheNextFetch : Prop :=
  ∀ (s : State) (m0 m1 m2 : Mode), ArgReady s 0 m0 → ArgReady s 1 m1 → ¬ s.mem.InRange (operandValue s 1 m1) →
    let t := { s with pc := operandValue s 1 m1 }
    (0 < operandValue s 0 m0 → Fetches s (.jumpIfTrue m0 m1 m2) →
      step s = .next t ∧ step t = .next (failedWith t (.pcOutOfBounds (operandValue s 1 m1)))) ∧
    (operandValue s 0 m0 ≤ 0 → Fetches s (.jumpIfFalse m0 m1 m2) →
      step s = .next t ∧ step t = .next (failedWith t (.pcOutOfBounds (operandValue s 1 m1))))

/-- Rule R170: LessThan writes 1 when the left value is less than the right one, as signed words, and 0 otherwise. -/
def Obligations.LessThanWritesOneOrZero : Prop :=
  ∀ (s : State) (m0 m1 : Mode), ArgReady s 0 m0 → ArgReady s 1 m1 → ArgReady s 2 .position →
    (operandValue s 0 m0 < operandValue s 1 m1 → exec (.lessThan m0 m1 .position) s =
      .next { s with mem := s.mem.write (targetIndex s 2) 1, pc := s.pc + 4 }) ∧
    (operandValue s 1 m1 ≤ operandValue s 0 m0 → exec (.lessThan m0 m1 .position) s =
      .next { s with mem := s.mem.write (targetIndex s 2) 0, pc := s.pc + 4 })

/-- Rule R171: Equals writes 1 when the values are equal and 0 otherwise. -/
def Obligations.EqualsWritesOneOrZero : Prop :=
  ∀ (s : State) (m0 m1 : Mode), ArgReady s 0 m0 → ArgReady s 1 m1 → ArgReady s 2 .position →
    (operandValue s 0 m0 = operandValue s 1 m1 → exec (.equals m0 m1 .position) s =
      .next { s with mem := s.mem.write (targetIndex s 2) 1, pc := s.pc + 4 }) ∧
    (operandValue s 0 m0 ≠ operandValue s 1 m1 → exec (.equals m0 m1 .position) s =
      .next { s with mem := s.mem.write (targetIndex s 2) 0, pc := s.pc + 4 })

/-- Rule R180: Terminate completes in every state and changes nothing but `state`. -/
def Obligations.TerminateHalts : Prop :=
  ∀ (s : State) (m0 m1 m2 : Mode), exec (.terminate m0 m1 m2) s = .next { s with runState := .halted }

/-! ### Frames -/

/-- What Add, Mul, LessThan and Equals leave unchanged (rules R34, R140, R141, R170, R171): the queue, the log, the
parameters, and every memory word but the one at the address the target argument resolves to; all of memory when it
resolves to none. They change `state` and `err` only by failing, and then not memory or `pc`. -/
def Obligations.StoringInstructionsFrame : Prop :=
  ∀ (s t : State) (m0 m1 m2 : Mode),
    (exec (.add m0 m1 m2) s = .next t ∨ exec (.mul m0 m1 m2) s = .next t ∨ exec (.lessThan m0 m1 m2) s = .next t ∨
      exec (.equals m0 m1 m2) s = .next t) →
    t.params = s.params ∧ t.inQueue = s.inQueue ∧ t.outLog = s.outLog ∧ t.mem.length = s.mem.length ∧
    (∀ a, resolve s 2 m2 = .ok (.position a) → ∀ b, b ≠ a → t.mem.cell b = s.mem.cell b) ∧
    ((∀ a, resolve s 2 m2 ≠ .ok (.position a)) → t.mem = s.mem) ∧
    (t.runState = s.runState ∧ t.err = s.err ∨
      t.runState = .failed ∧ t.err.isSome ∧ t.mem = s.mem ∧ t.pc = s.pc)

/-- What Input leaves unchanged (rules R34 and R150): the log, the parameters, every memory word but the one at the
address its argument resolves to, and the queue but for its front. It changes `state` and `err` only by failing, and then
nothing else. -/
def Obligations.InputFrame : Prop :=
  ∀ (s t : State) (m0 m1 m2 : Mode), exec (.input m0 m1 m2) s = .next t →
    t.params = s.params ∧ t.outLog = s.outLog ∧ t.mem.length = s.mem.length ∧
    (∀ a, resolve s 0 m0 = .ok (.position a) → ∀ b, b ≠ a → t.mem.cell b = s.mem.cell b) ∧
    ((∀ a, resolve s 0 m0 ≠ .ok (.position a)) → t.mem = s.mem) ∧
    (t.runState = s.runState ∧ t.err = s.err ∧ t.inQueue = s.inQueue.tail ∨
      t.runState = .failed ∧ t.err.isSome ∧ t.mem = s.mem ∧ t.pc = s.pc ∧ t.inQueue = s.inQueue)

/-- What Output and the jumps leave unchanged (rules R34, R151, R160, R161): all of memory, the queue and the parameters;
a jump the log too. They change `state` and `err` only by failing, and then not the log or `pc`. -/
def Obligations.OutputAndJumpsFrame : Prop :=
  ∀ (s t : State) (m0 m1 m2 : Mode),
    ((exec (.output m0 m1 m2) s = .next t ∨ exec (.jumpIfTrue m0 m1 m2) s = .next t ∨
        exec (.jumpIfFalse m0 m1 m2) s = .next t) →
      t.params = s.params ∧ t.mem = s.mem ∧ (∀ b, t.mem.cell b = s.mem.cell b) ∧ t.inQueue = s.inQueue ∧
      (t.runState = s.runState ∧ t.err = s.err ∨
        t.runState = .failed ∧ t.err.isSome ∧ t.outLog = s.outLog ∧ t.pc = s.pc)) ∧
    ((exec (.jumpIfTrue m0 m1 m2) s = .next t ∨ exec (.jumpIfFalse m0 m1 m2) s = .next t) → t.outLog = s.outLog)

/-! ### Construction, the invariant and the host -/

/-- Every step from a state that meets the invariant gives a state that meets it: memory stays canonical and its words,
`pc`, the queue, the log and the error stay words of the width, the log stays within its capacity, and there is an error
exactly in Failed (rules R8, R9, R11, R21, R24, R27, R28, R29, R32, R190). -/
def Obligations.EveryStepKeepsTheInvariant : Prop :=
  ∀ s t : State, s.Inv → step s = .next t → t.Inv

/-- The state after reset meets the invariant. -/
def Obligations.ResetMeetsTheInvariant : Prop := State.reset.Inv ∧ Sys2Proof.core.reset = State.reset

/-- A constructed instance meets the invariant, and so does every state of its run. -/
def Obligations.ConstructedInstancesKeepTheInvariant : Prop :=
  ∀ (p : Params) (image input : List Int) (s : State) (fuel : Nat), create p image input = .ok s →
    (runFor fuel s).Inv

/-- Rule R221: the value of every piece of state after construction. -/
def Obligations.ConstructionGivesEveryPieceItsValue : Prop :=
  ∀ (p : Params) (image input : List Int) (s : State), create p image input = .ok s →
    s.params = p ∧ (∀ (k : Nat) (h : k < image.length), s.mem.cell k = image[k]) ∧ s.mem.length = image.length ∧
    s.pc = 0 ∧ s.inQueue = input ∧ s.outLog = [] ∧ s.runState = .running ∧ s.err = none ∧
    (statusReg s).extractLsb' 0 2 = 0 ∧ (statusReg s).extractLsb' 2 6 = 0 ∧ (statusReg s).extractLsb' 8 2 = 3 ∧
    errValueReg s = 0

/-- Rules R9 and R130 with spec/92_eei_decisions.md D1: `create` builds an instance exactly when the width is at least 16,
the image no longer than `2^(W-1) - 4` words, and every element of image and input a word. -/
def Obligations.CreateRefusesWhatDoesNotFit : Prop :=
  ∀ (p : Params) (image input : List Int),
    (∃ s, create p image input = .ok s) ↔
      16 ≤ p.wordBits ∧ image.length ≤ 2 ^ (p.wordBits - 1) - 4 ∧
      (∀ v ∈ image, -(2 ^ (p.wordBits - 1) : Int) ≤ v ∧ v ≤ 2 ^ (p.wordBits - 1) - 1) ∧
      (∀ v ∈ input, -(2 ^ (p.wordBits - 1) : Int) ≤ v ∧ v ≤ 2 ^ (p.wordBits - 1) - 1)

/-- Rule R221's values in `State.reset`; that it is `create` of the empty image with no input is the model's choice
(notes/assumptions/5.md), as is its width (notes/assumptions/1.md). -/
def Obligations.ResetIsAnEmptyConstruction : Prop :=
  create Params.default [] [] = .ok State.reset ∧ State.reset.pc = 0 ∧ State.reset.outLog = [] ∧
  State.reset.runState = .running ∧ State.reset.err = none ∧
  statusReg State.reset = 0b0000001100000000#16 ∧ errValueReg State.reset = 0

/-- Rule R138: `run` on a stopped instance performs no step and returns the same result, and so does a later `run` once an
earlier one has a result. Rules R131 and R134: a state that is not Running has a result, and a Halted one its memory as
the final memory. That final memory is defined after Failed too is the spec's own decision (spec/92_eei_decisions.md D23)
as the model reads it (notes/assumptions/13.md); its value there is not stated. -/
def Obligations.StoppedInstancesStayStopped : Prop :=
  ∀ (s : State),
    (s.runState ≠ .running → ∀ fuel, runFor fuel s = s) ∧
    (∀ fuel more, (runFor fuel s).runState ≠ .running → runFor (fuel + more) s = runFor fuel s) ∧
    (s.Inv → ∀ fuel, ((runResult (runFor fuel s)).isSome ↔ (runFor fuel s).runState ≠ .running) ∧
      ((finalMemory (runFor fuel s)).isSome ↔ (runFor fuel s).runState ≠ .running)) ∧
    (s.runState = .halted → runResult s = some .halted ∧ finalMemory s = some s.mem.toWords) ∧
    (∀ e, s.runState = .failed → s.err = some e → runResult s = some (.failed e))

/-- Rules R29 and R133: the output log only grows: over any run, what `output()` returned before stands at its front. -/
def Obligations.OutputLogOnlyGrows : Prop :=
  ∀ (fuel more : Nat) (s : State), ∃ new, output (runFor (fuel + more) s) = output (runFor fuel s) ++ new

/-- Rules R65 and R135: an instance is chained only to a Halted producer, and starts as `create` says with the producer's
full output log first in its queue; and from a Halted producer every instance `create` builds so is chained. -/
def Obligations.ChainHandsOverTheFullLog : Prop :=
  ∀ (producer s : State) (p : Params) (image more : List Int),
    (producer.runState ≠ .halted → chain producer p image more = .error .producerNotHalted) ∧
    (chain producer p image more = .ok s →
      producer.runState = .halted ∧ create p image (producer.outLog ++ more) = .ok s ∧
      s.inQueue = producer.outLog ++ more ∧ s.mem.toWords = image) ∧
    (producer.runState = .halted → create p image (producer.outLog ++ more) = .ok s →
      chain producer p image more = .ok s)

/-- Rules R33 and R190: the fields of STATUS, each read back from the 16-bit register; reserved bits read 0, STATE is never
3 and ERR_CODE never above 9; ERR_CODE 0 is no error. ERR_VALUE is the word the recorded error carries, and 0 without an
error. -/
def Obligations.StatusRegisterFields : Prop :=
  ∀ s : State,
    ((statusReg s).extractLsb' 0 2 =
      match s.runState with
      | .running => 0
      | .halted => 1
      | .failed => 2) ∧
    ((statusReg s).extractLsb' 2 6 =
      match s.err with
      | none => 0
      | some e => e.code) ∧
    ((statusReg s).extractLsb' 8 2 =
      match s.err with
      | none => 3
      | some e => e.arg) ∧
    (statusReg s).extractLsb' 10 6 = 0 ∧
    ((statusReg s).extractLsb' 2 6).toNat ≤ 9 ∧
    ((statusReg s).extractLsb' 2 6 = 0 ↔ s.err = none) ∧
    (s.err = none → errValueReg s = 0) ∧
    (∀ e, s.err = some e → errValueReg s = e.value)

/-- Rule R190: the code, the argument field and the value of every error. -/
def Obligations.ErrorCodesAndPayloads : Prop :=
  ∀ (w : Int) (i : Fin 3) (m : Nat),
    (Err.invalidOpCode w).code = 1 ∧ (Err.invalidOpCode w).arg = 3 ∧ (Err.invalidOpCode w).value = w ∧
    (Err.invalidParamMode i m).code = 2 ∧ (Err.invalidParamMode i m).arg.toNat = i.val ∧
    (Err.invalidParamMode i m).value = m ∧
    (Err.positionOutOfBounds i w).code = 3 ∧ (Err.positionOutOfBounds i w).arg.toNat = i.val ∧
    (Err.positionOutOfBounds i w).value = w ∧
    (Err.immediateTargetParam i).code = 4 ∧ (Err.immediateTargetParam i).arg.toNat = i.val ∧
    (Err.immediateTargetParam i).value = 0 ∧
    Err.inputExhausted.code = 5 ∧ Err.inputExhausted.arg = 3 ∧ Err.inputExhausted.value = 0 ∧
    (Err.pcOutOfBounds w).code = 6 ∧ (Err.pcOutOfBounds w).arg = 3 ∧ (Err.pcOutOfBounds w).value = w ∧
    (Err.operandFetchOutOfBounds i w).code = 7 ∧ (Err.operandFetchOutOfBounds i w).arg.toNat = i.val ∧
    (Err.operandFetchOutOfBounds i w).value = w ∧
    (Err.arithmeticOverflow .add).code = 8 ∧ (Err.arithmeticOverflow .add).arg = 3 ∧
    (Err.arithmeticOverflow .add).value = 1 ∧
    (Err.arithmeticOverflow .mul).code = 8 ∧ (Err.arithmeticOverflow .mul).arg = 3 ∧
    (Err.arithmeticOverflow .mul).value = 2 ∧
    Err.outputOverflow.code = 9 ∧ Err.outputOverflow.arg = 3 ∧ Err.outputOverflow.value = 0

/-- Rules R33 and R197 over any run from a constructed instance: STATUS.ERR_CODE is not 0 exactly when STATUS.STATE is
Failed. -/
def Obligations.StatusReportsFailureExactlyWhenFailed : Prop :=
  ∀ (p : Params) (image input : List Int) (s : State) (fuel : Nat), create p image input = .ok s →
    ((statusReg (runFor fuel s)).extractLsb' 2 6 ≠ 0 ↔ (statusReg (runFor fuel s)).extractLsb' 0 2 = 2)

/-! ### What a program cannot observe -/

/-- Rules R29 and R36: with an unbounded log, no run can learn what the log holds: from any two logs the run is the same
but for the logs, and appends the same values. -/
def Obligations.OutputLogCannotBeObserved : Prop :=
  ∀ (fuel : Nat) (s : State), s.params.outputCapacity = none →
    ∃ new, ∀ log : List Int,
      runFor fuel { s with outLog := log } = { runFor fuel s with outLog := log ++ new }

/-- Rules R36, R132 and R180: a run learns of its queue only the values it consumes, and that it is empty when it fails
with `InputExhausted`: a run that does not fail so is the same with more values behind, and leaves them there. -/
def Obligations.UnconsumedInputCannotBeObserved : Prop :=
  ∀ (fuel : Nat) (s : State) (more : List Int), (runFor fuel s).err ≠ some .inputExhausted →
    runFor fuel { s with inQueue := s.inQueue ++ more } =
      { runFor fuel s with inQueue := (runFor fuel s).inQueue ++ more }

/-- Rules R125 and R131: `run` is one sequence of steps: running `m + n` steps is running `m` and then `n`, and a run
that stays Running takes one step for each unit of fuel. -/
def Obligations.RunsCompose : Prop :=
  ∀ (m n : Nat) (s : State),
    runFor (m + n) s = runFor n (runFor m s) ∧
    ((runFor (n + 1) s).runState = .running → ∃ t, step (runFor n s) = .next t ∧ runFor (n + 1) s = t)
end

