-- ==== Sys2Proof/Laws/Operands.lean ====
section
/-! SUPPORT. What the Resolver and the shared argument operations can do. -/

namespace Sys2Proof.Machine

/-- The Param a ready argument resolves to. -/
def paramOf (s : State) (i : Fin 3) (m : Mode) : Param :=
  match m with
  | .immediate => .immediate (argWord s i)
  | .position => .position (targetIndex s i)

/-- A ready argument resolves. -/
theorem resolve_of_ready {s : State} {i : Fin 3} {m : Mode} (h : ArgReady s i m) :
    resolve s i m = .ok (paramOf s i m) := by
  obtain ⟨_, h1, h2⟩ := h
  have hlt : ¬ (s.mem.length : Int) ≤ s.pc + 1 + i.val := by omega
  cases m with
  | immediate => simp only [resolve, if_neg hlt]; rfl
  | position =>
    have hr : s.mem.InRange (s.mem.cell (s.pc + 1 + i.val).toNat) := h2 rfl
    simp only [resolve, if_neg hlt, if_pos hr]; rfl

/-- Everything `resolve` can answer. -/
theorem resolve_cases (s : State) (i : Fin 3) (m : Mode) :
    (s.mem.length ≤ s.pc + 1 + i.val ∧ resolve s i m = .error (.operandFetchOutOfBounds i (s.pc + 1 + i.val))) ∨
    (s.pc + 1 + i.val < s.mem.length ∧ m = .position ∧ ¬ s.mem.InRange (argWord s i) ∧
      resolve s i m = .error (.positionOutOfBounds i (argWord s i))) ∨
    (s.pc + 1 + i.val < s.mem.length ∧ (m = .position → s.mem.InRange (argWord s i)) ∧
      resolve s i m = .ok (paramOf s i m)) := by
  by_cases hlt : (s.mem.length : Int) ≤ s.pc + 1 + i.val
  · exact .inl ⟨hlt, by simp only [resolve, if_pos hlt]⟩
  · refine .inr ?_
    have hlt' : s.pc + 1 + i.val < s.mem.length := by omega
    cases m with
    | immediate => exact .inr ⟨hlt', by simp, by simp only [resolve, if_neg hlt]; rfl⟩
    | position =>
      by_cases hr : s.mem.InRange (argWord s i)
      · refine .inr ⟨hlt', fun _ => hr, ?_⟩
        have hr' : s.mem.InRange (s.mem.cell (s.pc + 1 + i.val).toNat) := hr
        simp only [resolve, if_neg hlt, if_pos hr']; rfl
      · refine .inl ⟨hlt', rfl, hr, ?_⟩
        have hr' : ¬ s.mem.InRange (s.mem.cell (s.pc + 1 + i.val).toNat) := hr
        simp only [resolve, if_neg hlt, if_neg hr']; rfl

/-- What an argument resolves to, when it resolves. -/
theorem resolve_ok {s : State} {i : Fin 3} {m : Mode} {p : Param} (h : resolve s i m = .ok p) :
    s.pc + 1 + i.val < s.mem.length ∧ (m = .position → s.mem.InRange (argWord s i)) ∧ p = paramOf s i m := by
  rcases resolve_cases s i m with ⟨_, h'⟩ | ⟨_, _, _, h'⟩ | ⟨h1, h2, h'⟩ <;> rw [h'] at h
  · cases h
  · cases h
  · exact ⟨h1, h2, by cases h; rfl⟩

/-- Resolution does not read the queue, the log, the run state, the error or the parameters. -/
theorem resolve_congr {s s' : State} (hm : s'.mem = s.mem) (hp : s'.pc = s.pc) (i : Fin 3) (m : Mode) :
    resolve s' i m = resolve s i m := by
  simp only [resolve, hm, hp]

@[simp] theorem value_paramOf (s : State) (i : Fin 3) (m : Mode) :
    value s.mem (paramOf s i m) = operandValue s i m := by
  cases m <;> rfl

@[simp] theorem address_position (a : Nat) (i : Fin 3) : address (.position a) i = .ok a := rfl

@[simp] theorem address_immediate (v : Int) (i : Fin 3) :
    address (.immediate v) i = .error (.immediateTargetParam i) := rfl

@[simp] theorem address_paramOf_position (s : State) (i k : Fin 3) :
    address (paramOf s i .position) k = .ok (targetIndex s i) := rfl

@[simp] theorem address_paramOf_immediate (s : State) (i k : Fin 3) :
    address (paramOf s i .immediate) k = .error (.immediateTargetParam k) := rfl

/-- Peel one computation off an `Except` that succeeds. -/
theorem bind_ok_iff {α β : Type} {x : Except Err α} {f : α → Except Err β} {b : β} :
    (x >>= f) = .ok b ↔ ∃ a, x = .ok a ∧ f a = .ok b := by
  cases x <;> simp [bind, Except.bind]

/-- Peel one computation off an `Except` that fails. -/
theorem bind_error_iff {α β : Type} {x : Except Err α} {f : α → Except Err β} {e : Err} :
    (x >>= f) = .error e ↔ x = .error e ∨ ∃ a, x = .ok a ∧ f a = .error e := by
  cases x <;> simp [bind, Except.bind]

@[simp] theorem ok_bind {α β : Type} (a : α) (f : α → Except Err β) : ((Except.ok a : Except Err α) >>= f) = f a := rfl

@[simp] theorem error_bind {α β : Type} (e : Err) (f : α → Except Err β) :
    ((Except.error e : Except Err α) >>= f) = .error e := rfl

@[simp] theorem pure_ok {α : Type} (a : α) : (pure a : Except Err α) = .ok a := rfl

/-- One ready argument: the instruction executes on it. -/
theorem withArgs1_of_ready {s : State} {m0 : Mode} (f : Param → Except Err Effects) (h0 : ArgReady s 0 m0) :
    withArgs1 s m0 f = f (paramOf s 0 m0) := by
  simp [withArgs1, resolve_of_ready h0]

/-- Two ready arguments: the instruction executes on them. -/
theorem withArgs2_of_ready {s : State} {m0 m1 : Mode} (f : Param → Param → Except Err Effects)
    (h0 : ArgReady s 0 m0) (h1 : ArgReady s 1 m1) :
    withArgs2 s m0 m1 f = f (paramOf s 0 m0) (paramOf s 1 m1) := by
  simp [withArgs2, resolve_of_ready h0, resolve_of_ready h1]

/-- Three ready arguments: the instruction executes on them. -/
theorem withArgs3_of_ready {s : State} {m0 m1 m2 : Mode} (f : Param → Param → Param → Except Err Effects)
    (h0 : ArgReady s 0 m0) (h1 : ArgReady s 1 m1) (h2 : ArgReady s 2 m2) :
    withArgs3 s m0 m1 m2 f = f (paramOf s 0 m0) (paramOf s 1 m1) (paramOf s 2 m2) := by
  simp [withArgs3, resolve_of_ready h0, resolve_of_ready h1, resolve_of_ready h2]

/-- When one argument's execution succeeds, the argument resolved. -/
theorem withArgs1_ok {s : State} {m0 : Mode} {f : Param → Except Err Effects} {e : Effects}
    (h : withArgs1 s m0 f = .ok e) : ∃ p0, resolve s 0 m0 = .ok p0 ∧ f p0 = .ok e :=
  bind_ok_iff.1 h

/-- When two arguments' execution succeeds, both resolved. -/
theorem withArgs2_ok {s : State} {m0 m1 : Mode} {f : Param → Param → Except Err Effects} {e : Effects}
    (h : withArgs2 s m0 m1 f = .ok e) :
    ∃ p0 p1, resolve s 0 m0 = .ok p0 ∧ resolve s 1 m1 = .ok p1 ∧ f p0 p1 = .ok e := by
  obtain ⟨p0, h0, h⟩ := bind_ok_iff.1 h
  obtain ⟨p1, h1, h⟩ := bind_ok_iff.1 h
  exact ⟨p0, p1, h0, h1, h⟩

/-- When three arguments' execution succeeds, all resolved. -/
theorem withArgs3_ok {s : State} {m0 m1 m2 : Mode} {f : Param → Param → Param → Except Err Effects} {e : Effects}
    (h : withArgs3 s m0 m1 m2 f = .ok e) :
    ∃ p0 p1 p2, resolve s 0 m0 = .ok p0 ∧ resolve s 1 m1 = .ok p1 ∧ resolve s 2 m2 = .ok p2 ∧ f p0 p1 p2 = .ok e := by
  obtain ⟨p0, h0, h⟩ := bind_ok_iff.1 h
  obtain ⟨p1, h1, h⟩ := bind_ok_iff.1 h
  obtain ⟨p2, h2, h⟩ := bind_ok_iff.1 h
  exact ⟨p0, p1, p2, h0, h1, h2, h⟩

end Sys2Proof.Machine
end

