-- ==== Sys2Proof/Laws/Ops.lean ====
section
/-! SUPPORT. Inversion lemmas: everything the end of a step, the fetch and the step itself can do. -/

namespace Sys2Proof.Machine

@[simp] theorem complete_ok (s : State) (e : Effects) : complete s (.ok e) = .next (commit s e) := rfl
@[simp] theorem complete_error (s : State) (e : Err) : complete s (.error e) = .next (failureEntry s e) := rfl

/-- The end of a step commits or fails, and answers nothing else. -/
theorem complete_next {s t : State} {r : Except Err Effects} (h : complete s r = .next t) :
    (∃ e, r = .ok e ∧ t = commit s e) ∨ (∃ e, r = .error e ∧ t = failureEntry s e) := by
  cases r with
  | ok e => exact .inl ⟨e, rfl, by cases h; rfl⟩
  | error e => exact .inr ⟨e, rfl, by cases h; rfl⟩

/-- The fetch reads `mem[pc]` or raises `PcOutOfBounds`. -/
theorem fetch_cases (s : State) :
    (s.mem.InRange s.pc ∧ fetch s = .ok (s.mem.cell s.pc.toNat)) ∨
    (¬ s.mem.InRange s.pc ∧ fetch s = .error (.pcOutOfBounds s.pc)) := by
  by_cases h : s.mem.InRange s.pc
  · exact .inl ⟨h, by simp only [fetch, if_pos h]⟩
  · exact .inr ⟨h, by simp only [fetch, if_neg h]⟩

/-- Everything a step that answers a next state can have done: failed in the fetch, failed in the decode, or run the
instruction it fetched. -/
theorem step_next_cases {s t : State} (h : step s = .next t) :
    s.runState = .running ∧
    ((¬ s.mem.InRange s.pc ∧ t = failedWith s (.pcOutOfBounds s.pc)) ∨
     (s.mem.InRange s.pc ∧ ∃ e, decode (s.mem.cell s.pc.toNat) = .error e ∧ t = failedWith s e) ∨
     (∃ i, Fetches s i ∧ exec i s = .next t)) := by
  unfold step at h
  cases hr : s.runState with
  | halted => rw [hr] at h; cases h
  | failed => rw [hr] at h; cases h
  | running =>
    refine ⟨rfl, ?_⟩
    rw [hr] at h
    rcases fetch_cases s with ⟨hin, hf⟩ | ⟨hout, hf⟩ <;> rw [hf] at h
    · cases hd : decode (s.mem.cell s.pc.toNat) with
      | error e =>
        simp only [hd] at h
        exact .inr (.inl ⟨hin, e, rfl, by cases h; rfl⟩)
      | ok i =>
        simp only [hd] at h
        exact .inr (.inr ⟨i, ⟨hr, hin, hd⟩, h⟩)
    · exact .inl ⟨hout, by cases h; rfl⟩

end Sys2Proof.Machine
end

