-- ==== Sys2Proof/Laws/State.lean ====
section
/-! SUPPORT. One lemma per field for every operation that builds a state: failure entry, commit, loading. -/

namespace Sys2Proof.Machine

@[simp] theorem failureEntry_params (s : State) (e : Err) : (failureEntry s e).params = s.params := rfl
@[simp] theorem failureEntry_mem (s : State) (e : Err) : (failureEntry s e).mem = s.mem := rfl
@[simp] theorem failureEntry_pc (s : State) (e : Err) : (failureEntry s e).pc = s.pc := rfl
@[simp] theorem failureEntry_inQueue (s : State) (e : Err) : (failureEntry s e).inQueue = s.inQueue := rfl
@[simp] theorem failureEntry_outLog (s : State) (e : Err) : (failureEntry s e).outLog = s.outLog := rfl
@[simp] theorem failureEntry_runState (s : State) (e : Err) : (failureEntry s e).runState = .failed := rfl
@[simp] theorem failureEntry_err (s : State) (e : Err) : (failureEntry s e).err = some e := rfl

/-- Failure entry is what rule R120 says, written out. -/
theorem failureEntry_eq_failedWith (s : State) (e : Err) : failureEntry s e = failedWith s e := rfl

@[simp] theorem commit_params (s : State) (e : Effects) : (commit s e).params = s.params := rfl
@[simp] theorem commit_mem (s : State) (e : Effects) : (commit s e).mem = e.memAfter s.mem := rfl
@[simp] theorem commit_pc (s : State) (e : Effects) : (commit s e).pc = e.pcAfter s.pc := rfl
@[simp] theorem commit_inQueue (s : State) (e : Effects) : (commit s e).inQueue = e.queueAfter s.inQueue := rfl
@[simp] theorem commit_outLog (s : State) (e : Effects) : (commit s e).outLog = e.logAfter s.outLog := rfl
@[simp] theorem commit_runState (s : State) (e : Effects) :
    (commit s e).runState = e.runStateAfter s.runState := rfl
@[simp] theorem commit_err (s : State) (e : Effects) : (commit s e).err = s.err := rfl

@[simp] theorem memAfter_none (p : Bool) (l : Option Int) (n : Next) (m : Memory) :
    Effects.memAfter ⟨none, p, l, n⟩ m = m := rfl
@[simp] theorem memAfter_some (a : Nat) (v : Int) (p : Bool) (l : Option Int) (n : Next) (m : Memory) :
    Effects.memAfter ⟨some (a, v), p, l, n⟩ m = m.write a v := rfl
@[simp] theorem queueAfter_false (w : Option (Nat × Int)) (l : Option Int) (n : Next) (q : List Int) :
    Effects.queueAfter ⟨w, false, l, n⟩ q = q := rfl
@[simp] theorem queueAfter_true (w : Option (Nat × Int)) (l : Option Int) (n : Next) (q : List Int) :
    Effects.queueAfter ⟨w, true, l, n⟩ q = q.tail := rfl
@[simp] theorem logAfter_none (w : Option (Nat × Int)) (p : Bool) (n : Next) (l : List Int) :
    Effects.logAfter ⟨w, p, none, n⟩ l = l := rfl
@[simp] theorem logAfter_some (w : Option (Nat × Int)) (p : Bool) (v : Int) (n : Next) (l : List Int) :
    Effects.logAfter ⟨w, p, some v, n⟩ l = l ++ [v] := rfl
@[simp] theorem pcAfter_goto (w : Option (Nat × Int)) (p : Bool) (l : Option Int) (t pc : Int) :
    Effects.pcAfter ⟨w, p, l, .goto t⟩ pc = t := rfl
@[simp] theorem pcAfter_halt (w : Option (Nat × Int)) (p : Bool) (l : Option Int) (pc : Int) :
    Effects.pcAfter ⟨w, p, l, .halt⟩ pc = pc := rfl
@[simp] theorem runStateAfter_goto (w : Option (Nat × Int)) (p : Bool) (l : Option Int) (t : Int) (r : RunState) :
    Effects.runStateAfter ⟨w, p, l, .goto t⟩ r = r := rfl
@[simp] theorem runStateAfter_halt (w : Option (Nat × Int)) (p : Bool) (l : Option Int) (r : RunState) :
    Effects.runStateAfter ⟨w, p, l, .halt⟩ r = .halted := rfl

@[simp] theorem withFetchWord_params (s : State) (nbits w : Nat) : (s.withFetchWord nbits w).params = s.params := rfl
@[simp] theorem withFetchWord_pc (s : State) (nbits w : Nat) : (s.withFetchWord nbits w).pc = s.pc.toNat := rfl
@[simp] theorem withFetchWord_inQueue (s : State) (nbits w : Nat) :
    (s.withFetchWord nbits w).inQueue = s.inQueue := rfl
@[simp] theorem withFetchWord_outLog (s : State) (nbits w : Nat) : (s.withFetchWord nbits w).outLog = s.outLog := rfl
@[simp] theorem withFetchWord_runState (s : State) (nbits w : Nat) :
    (s.withFetchWord nbits w).runState = .running := rfl
@[simp] theorem withFetchWord_err (s : State) (nbits w : Nat) : (s.withFetchWord nbits w).err = none := rfl

end Sys2Proof.Machine
end

