-- ==== Sys2Proof/Laws/Exec.lean ====
section
/-! SUPPORT. The inversion lemma of the Executor: everything an instruction that answers a next state can have done. -/

namespace Sys2Proof.Machine

/-- `t` is `s` after instruction `i` had its own effect. -/
def Completed (i : Instr) (s t : State) : Prop :=
  match i with
  | .add m0 m1 m2 => m2 = .position ∧ s.mem.InRange (argWord s 2) ∧
      ∃ v, narrow s.params .add (operandValue s 0 m0 + operandValue s 1 m1) = .ok v ∧
        t = { s with mem := s.mem.write (targetIndex s 2) v, pc := s.pc + 4 }
  | .mul m0 m1 m2 => m2 = .position ∧ s.mem.InRange (argWord s 2) ∧
      ∃ v, narrow s.params .mul (operandValue s 0 m0 * operandValue s 1 m1) = .ok v ∧
        t = { s with mem := s.mem.write (targetIndex s 2) v, pc := s.pc + 4 }
  | .lessThan m0 m1 m2 => m2 = .position ∧ s.mem.InRange (argWord s 2) ∧
      t = { s with mem := s.mem.write (targetIndex s 2) (boolWord (decide (operandValue s 0 m0 < operandValue s 1 m1))),
                   pc := s.pc + 4 }
  | .equals m0 m1 m2 => m2 = .position ∧ s.mem.InRange (argWord s 2) ∧
      t = { s with mem := s.mem.write (targetIndex s 2) (boolWord (decide (operandValue s 0 m0 = operandValue s 1 m1))),
                   pc := s.pc + 4 }
  | .input m0 _ _ => m0 = .position ∧ s.mem.InRange (argWord s 0) ∧
      ∃ v rest, s.inQueue = v :: rest ∧
        t = { s with mem := s.mem.write (targetIndex s 0) v, inQueue := rest, pc := s.pc + 2 }
  | .output m0 _ _ => logFull s = false ∧
      t = { s with outLog := s.outLog ++ [operandValue s 0 m0], pc := s.pc + 2 }
  | .jumpIfTrue m0 m1 _ =>
      t = { s with pc := if 0 < operandValue s 0 m0 then operandValue s 1 m1 else s.pc + 3 }
  | .jumpIfFalse m0 m1 _ =>
      t = { s with pc := if 0 < operandValue s 0 m0 then s.pc + 3 else operandValue s 1 m1 }
  | .terminate _ _ _ => t = { s with runState := .halted }

/-- The errors `resolve` raises for a declared argument are among the instruction's. -/
theorem mayRaise_of_resolve_error {i : Instr} {s : State} {k : Fin 3} {e : Err} (hk : k.val < i.nargs)
    (h : resolve s k (i.mode k) = .error e) : MayRaise i s e := by
  rcases resolve_cases s k (i.mode k) with ⟨hl, h'⟩ | ⟨_, hm, hr, h'⟩ | ⟨_, _, h'⟩ <;> rw [h'] at h <;> cases h
  · exact ⟨hk, rfl, hl⟩
  · exact ⟨hk, hm, rfl, hr⟩

theorem withArgs1_error {s : State} {m0 : Mode} {f : Param → Except Err Effects} {e : Err}
    (h : withArgs1 s m0 f = .error e) :
    resolve s 0 m0 = .error e ∨ f (paramOf s 0 m0) = .error e := by
  rcases bind_error_iff.1 h with h | ⟨p0, h0, h⟩
  · exact .inl h
  · cases (resolve_ok h0).2.2; exact .inr h

theorem withArgs2_error {s : State} {m0 m1 : Mode} {f : Param → Param → Except Err Effects} {e : Err}
    (h : withArgs2 s m0 m1 f = .error e) :
    resolve s 0 m0 = .error e ∨ resolve s 1 m1 = .error e ∨ f (paramOf s 0 m0) (paramOf s 1 m1) = .error e := by
  rcases bind_error_iff.1 h with h | ⟨p0, h0, h⟩
  · exact .inl h
  rcases bind_error_iff.1 h with h | ⟨p1, h1, h⟩
  · exact .inr (.inl h)
  · cases (resolve_ok h0).2.2; cases (resolve_ok h1).2.2; exact .inr (.inr h)

theorem withArgs3_error {s : State} {m0 m1 m2 : Mode} {f : Param → Param → Param → Except Err Effects} {e : Err}
    (h : withArgs3 s m0 m1 m2 f = .error e) :
    resolve s 0 m0 = .error e ∨ resolve s 1 m1 = .error e ∨ resolve s 2 m2 = .error e ∨
      f (paramOf s 0 m0) (paramOf s 1 m1) (paramOf s 2 m2) = .error e := by
  rcases bind_error_iff.1 h with h | ⟨p0, h0, h⟩
  · exact .inl h
  rcases bind_error_iff.1 h with h | ⟨p1, h1, h⟩
  · exact .inr (.inl h)
  rcases bind_error_iff.1 h with h | ⟨p2, h2, h⟩
  · exact .inr (.inr (.inl h))
  · cases (resolve_ok h0).2.2; cases (resolve_ok h1).2.2; cases (resolve_ok h2).2.2; exact .inr (.inr (.inr h))

/-- A target argument that has an address is Position, and the address is its word. -/
theorem address_ok {s : State} {i k : Fin 3} {m : Mode} {a : Nat} (h : address (paramOf s i m) k = .ok a) :
    m = .position ∧ a = targetIndex s i := by
  cases m with
  | immediate => cases h
  | position => exact ⟨rfl, by cases h; rfl⟩

/-- A target argument that has no address is Immediate. -/
theorem address_error {s : State} {i k : Fin 3} {m : Mode} {e : Err} (h : address (paramOf s i m) k = .error e) :
    m = .immediate ∧ e = .immediateTargetParam k := by
  cases m with
  | immediate => exact ⟨rfl, by cases h; rfl⟩
  | position => cases h

/-- Everything Add's and Mul's own stage can do. -/
theorem arithEffects_cases (op : ArithOp) (x : Int) (s : State) (m : Mode) :
    (∃ v, m = .position ∧ narrow s.params op x = .ok v ∧
      arithEffects op x s (paramOf s 2 m) = .ok ⟨some (targetIndex s 2, v), false, none, .goto (s.pc + 4)⟩) ∨
    (∃ e, (m = .immediate ∧ e = .immediateTargetParam 2 ∨
        e = .arithmeticOverflow op ∧ s.params.overflowMode = .fault ∧ ¬ InWord s.params.wordBits x) ∧
      arithEffects op x s (paramOf s 2 m) = .error e) := by
  cases m with
  | immediate => exact .inr ⟨_, .inl ⟨rfl, rfl⟩, rfl⟩
  | position =>
    cases hn : narrow s.params op x with
    | ok v => exact .inl ⟨v, rfl, rfl, by simp only [arithEffects, address_paramOf_position, ok_bind, hn]; rfl⟩
    | error e =>
      refine .inr ⟨e, .inr ?_, by simp only [arithEffects, address_paramOf_position, ok_bind, hn]; rfl⟩
      unfold narrow at hn
      split at hn
      · cases hn
      · next hx => split at hn <;> cases hn; exact ⟨rfl, ‹_›, hx⟩

/-- Everything LessThan's and Equals' own stage can do. -/
theorem compareEffects_cases (b : Bool) (s : State) (m : Mode) :
    (m = .position ∧
      compareEffects b s (paramOf s 2 m) = .ok ⟨some (targetIndex s 2, boolWord b), false, none, .goto (s.pc + 4)⟩) ∨
    (m = .immediate ∧ compareEffects b s (paramOf s 2 m) = .error (.immediateTargetParam 2)) := by
  cases m with
  | immediate => exact .inr ⟨rfl, rfl⟩
  | position => exact .inl ⟨rfl, rfl⟩

/-- The log is full exactly when it is bounded and holds its capacity of values. -/
theorem logFull_iff {s : State} : logFull s = true ↔ s.params.outputCapacity = some s.outLog.length := by
  unfold logFull
  cases s.params.outputCapacity with
  | none => simp
  | some K => simp only [beq_iff_eq, Option.some.injEq]; exact eq_comm

/-- Everything Input's own stage can do. -/
theorem inputEffects_cases (s : State) (m : Mode) :
    (∃ v rest, m = .position ∧ s.inQueue = v :: rest ∧
      inputEffects s (paramOf s 0 m) = .ok ⟨some (targetIndex s 0, v), true, none, .goto (s.pc + 2)⟩) ∨
    (m = .immediate ∧ inputEffects s (paramOf s 0 m) = .error (.immediateTargetParam 0)) ∨
    (m = .position ∧ s.inQueue = [] ∧ inputEffects s (paramOf s 0 m) = .error .inputExhausted) := by
  cases m with
  | immediate => exact .inr (.inl ⟨rfl, rfl⟩)
  | position =>
    cases hq : s.inQueue with
    | nil => exact .inr (.inr ⟨rfl, rfl, by simp [inputEffects, hq]⟩)
    | cons v rest => exact .inl ⟨v, rest, rfl, rfl, by simp [inputEffects, hq]⟩

/-- An instruction that answers a next state completed, or failed with one of its errors. -/
theorem exec_next_cases {i : Instr} {s t : State} (h : exec i s = .next t) :
    Completed i s t ∨ ∃ e, MayRaise i s e ∧ t = failedWith s e := by
  have raise {k : Fin 3} {e : Err} (hk : k.val < i.nargs) (hr : resolve s k (i.mode k) = .error e)
      (ht : t = failureEntry s e) : ∃ e, MayRaise i s e ∧ t = failedWith s e :=
    ⟨e, mayRaise_of_resolve_error hk hr, ht⟩
  cases i with
  | add m0 m1 m2 | mul m0 m1 m2 =>
    rcases complete_next h with ⟨e, he, rfl⟩ | ⟨e, he, ht⟩
    · obtain ⟨p0, p1, p2, h0, h1, h2, he⟩ := withArgs3_ok he
      obtain ⟨_, hr, rfl⟩ := resolve_ok h2
      cases (resolve_ok h0).2.2; cases (resolve_ok h1).2.2
      rw [value_paramOf, value_paramOf] at he
      rcases arithEffects_cases _ _ s m2 with ⟨v, hm, hn, ha⟩ | ⟨_, _, ha⟩ <;> rw [ha] at he <;> cases he
      exact .inl ⟨hm, hr hm, v, hn, rfl⟩
    · right
      rcases withArgs3_error he with hr | hr | hr | he
      · exact raise (k := 0) (by simp [Instr.nargs]) hr ht
      · exact raise (k := 1) (by simp [Instr.nargs]) hr ht
      · exact raise (k := 2) (by simp [Instr.nargs]) hr ht
      · rcases arithEffects_cases _ _ s m2 with ⟨v, _, _, ha⟩ | ⟨e', hc, ha⟩ <;> rw [ha] at he <;> cases he
        refine ⟨e, ?_, ht⟩
        rcases hc with ⟨hm, rfl⟩ | ⟨rfl, hf, hx⟩
        · exact ⟨rfl, hm⟩
        · exact ⟨rfl, hf, by rwa [value_paramOf, value_paramOf] at hx⟩
  | lessThan m0 m1 m2 | equals m0 m1 m2 =>
    rcases complete_next h with ⟨e, he, rfl⟩ | ⟨e, he, ht⟩
    · obtain ⟨p0, p1, p2, h0, h1, h2, he⟩ := withArgs3_ok he
      obtain ⟨_, hr, rfl⟩ := resolve_ok h2
      cases (resolve_ok h0).2.2; cases (resolve_ok h1).2.2
      rw [value_paramOf, value_paramOf] at he
      rcases compareEffects_cases _ s m2 with ⟨hm, ha⟩ | ⟨_, ha⟩ <;> rw [ha] at he <;> cases he
      exact .inl ⟨hm, hr hm, rfl⟩
    · right
      rcases withArgs3_error he with hr | hr | hr | he
      · exact raise (k := 0) (by simp [Instr.nargs]) hr ht
      · exact raise (k := 1) (by simp [Instr.nargs]) hr ht
      · exact raise (k := 2) (by simp [Instr.nargs]) hr ht
      · rcases compareEffects_cases _ s m2 with ⟨_, ha⟩ | ⟨hm, ha⟩ <;> rw [ha] at he <;> cases he
        exact ⟨.immediateTargetParam 2, ⟨rfl, hm⟩, ht⟩
  | input m0 m1 m2 =>
    rcases complete_next h with ⟨e, he, rfl⟩ | ⟨e, he, ht⟩
    · obtain ⟨p0, h0, he⟩ := withArgs1_ok he
      obtain ⟨_, hr, rfl⟩ := resolve_ok h0
      rcases inputEffects_cases s m0 with ⟨v, rest, hm, hq, ha⟩ | ⟨_, ha⟩ | ⟨_, _, ha⟩ <;> rw [ha] at he <;> cases he
      refine .inl ⟨hm, hr hm, v, rest, hq, ?_⟩
      simp [commit, Effects.memAfter, Effects.queueAfter, Effects.logAfter, Effects.pcAfter, Effects.runStateAfter, hq]
    · right
      rcases withArgs1_error he with hr | he
      · exact raise (k := 0) (by simp [Instr.nargs]) hr ht
      · rcases inputEffects_cases s m0 with ⟨v, rest, _, _, ha⟩ | ⟨hm, ha⟩ | ⟨_, hq, ha⟩ <;> rw [ha] at he <;> cases he
        · exact ⟨.immediateTargetParam 0, ⟨rfl, hm⟩, ht⟩
        · exact ⟨.inputExhausted, ⟨rfl, hq⟩, ht⟩
  | output m0 m1 m2 =>
    rcases complete_next h with ⟨e, he, rfl⟩ | ⟨e, he, ht⟩
    · obtain ⟨p0, h0, he⟩ := withArgs1_ok he
      cases (resolve_ok h0).2.2
      unfold outputEffects at he
      split at he
      · cases he
      · next hl =>
        cases he
        exact .inl ⟨by simpa using hl, by rw [← value_paramOf]; rfl⟩
    · right
      rcases withArgs1_error he with hr | he
      · exact raise (k := 0) (by simp [Instr.nargs]) hr ht
      · unfold outputEffects at he
        split at he <;> cases he
        exact ⟨.outputOverflow, ⟨rfl, logFull_iff.1 ‹_›⟩, ht⟩
  | jumpIfTrue m0 m1 m2 | jumpIfFalse m0 m1 m2 =>
    rcases complete_next h with ⟨e, he, rfl⟩ | ⟨e, he, ht⟩
    · obtain ⟨p0, p1, h0, h1, he⟩ := withArgs2_ok he
      cases (resolve_ok h0).2.2; cases (resolve_ok h1).2.2
      cases he
      left
      by_cases hc : 0 < operandValue s 0 m0 <;>
        simp [Completed, commit, jumpEffects, truthy, hc, Effects.memAfter, Effects.queueAfter, Effects.logAfter,
          Effects.pcAfter, Effects.runStateAfter]
    · right
      rcases withArgs2_error he with hr | hr | he
      · exact raise (k := 0) (by simp [Instr.nargs]) hr ht
      · exact raise (k := 1) (by simp [Instr.nargs]) hr ht
      · cases he
  | terminate m0 m1 m2 =>
    cases h
    exact .inl rfl

end Sys2Proof.Machine
end

