-- ==== Sys2Proof/Laws/Flags.lean ====
section
/-! SUPPORT. What narrowing, truthiness and the comparison word can be. -/

namespace Sys2Proof.Machine

/-- A result in range is kept. -/
theorem narrow_of_fits {p : Params} {x : Int} (op : ArithOp) (h : InWord p.wordBits x) : narrow p op x = .ok x := by
  simp only [narrow, if_pos h]

/-- Everything `narrow` can answer. -/
theorem narrow_cases (p : Params) (op : ArithOp) (x : Int) :
    (InWord p.wordBits x ∧ narrow p op x = .ok x) ∨
    (¬ InWord p.wordBits x ∧ p.overflowMode = .fault ∧ narrow p op x = .error (.arithmeticOverflow op)) ∨
    (¬ InWord p.wordBits x ∧ p.overflowMode = .wrap ∧ narrow p op x = .ok (wrapWord p.wordBits x)) := by
  by_cases h : InWord p.wordBits x
  · exact .inl ⟨h, narrow_of_fits op h⟩
  · refine .inr ?_
    cases hm : p.overflowMode with
    | fault => exact .inl ⟨h, rfl, by simp only [narrow, if_neg h, hm]⟩
    | wrap => exact .inr ⟨h, rfl, by simp only [narrow, if_neg h, hm]⟩

@[simp] theorem truthy_iff (c : Int) : truthy c = true ↔ 0 < c := by simp [truthy]

@[simp] theorem boolWord_true : boolWord true = 1 := rfl
@[simp] theorem boolWord_false : boolWord false = 0 := rfl

/-- The comparison word fits every width the spec allows. -/
theorem boolWord_fits {p : Params} (h : p.wf) (b : Bool) : InWord p.wordBits (boolWord b) := by
  have h2 : (2 : Int) ≤ 2 ^ (p.wordBits - 1) :=
    le_self_pow₀ (by norm_num) (by have : 16 ≤ p.wordBits := h; omega)
  cases b <;> simp only [boolWord, InWord, wmin, wmax] <;> constructor <;> norm_num <;> omega

end Sys2Proof.Machine
end

