-- ==== Sys2Proof/Laws/Memory.lean ====
section
/-! SUPPORT. What the list operations behind memory do, and that every memory operation keeps the canonical form. -/

namespace Sys2Proof.Machine

@[simp] theorem cellIn_nil (a : Nat) : cellIn a [] = Memory.unlisted := rfl

theorem cellIn_cons (a b : Nat) (v : Int) (l : List (Nat × Int)) :
    cellIn a ((b, v) :: l) = if b = a then v else cellIn a l := rfl

/-- An index that is not listed holds the unlisted word. -/
theorem cellIn_eq_unlisted {a : Nat} {l : List (Nat × Int)} (h : ∀ c ∈ l, c.1 ≠ a) :
    cellIn a l = Memory.unlisted := by
  induction l with
  | nil => rfl
  | cons c l ih =>
    obtain ⟨b, v⟩ := c
    rw [cellIn_cons, if_neg (h (b, v) (by simp))]
    exact ih fun c hc => h c (by simp [hc])

/-- In a list with rising indices, a listed pair is what its index reads as. -/
theorem cellIn_of_mem {a : Nat} {v : Int} {l : List (Nat × Int)} (hs : l.Pairwise (fun c d => c.1 < d.1))
    (h : (a, v) ∈ l) : cellIn a l = v := by
  induction l with
  | nil => simp at h
  | cons c l ih =>
    obtain ⟨b, x⟩ := c
    rw [List.pairwise_cons] at hs
    rw [cellIn_cons]
    rcases List.mem_cons.1 h with heq | hin
    · cases heq; simp
    · have := hs.1 _ hin
      rw [if_neg (by simp at this; omega)]
      exact ih hs.2 hin

theorem cellIn_insertCell (a b : Nat) (v : Int) (l : List (Nat × Int)) (h : ∀ c ∈ l, c.1 ≠ a) :
    cellIn b (insertCell a v l) = if b = a then v else cellIn b l := by
  induction l with
  | nil => simp [insertCell, cellIn_cons, eq_comm]
  | cons c l ih =>
    obtain ⟨d, x⟩ := c
    have hd : d ≠ a := h (d, x) (by simp)
    have ih := ih fun c hc => h c (by simp [hc])
    unfold insertCell
    split
    · rw [cellIn_cons, cellIn_cons, ih]
      by_cases hb : b = a
      · subst hb; simp [hd]
      · simp [hb]
    · rw [cellIn_cons]; simp [eq_comm]

theorem cellIn_filter_ne (a b : Nat) (h : b ≠ a) (l : List (Nat × Int)) :
    cellIn b (l.filter (fun c => c.1 != a)) = cellIn b l := by
  induction l with
  | nil => rfl
  | cons c l ih =>
    obtain ⟨d, x⟩ := c
    by_cases hd : d = a
    · subst hd; simp [cellIn_cons, ih, Ne.symm h]
    · simp [hd, cellIn_cons, ih]

/-- Setting a cell changes what its own index reads as, and no other. -/
theorem cellIn_setCell (a b : Nat) (v : Int) (l : List (Nat × Int)) :
    cellIn b (setCell a v l) = if b = a then v else cellIn b l := by
  unfold setCell
  by_cases hb : b = a
  · subst hb
    split
    · next hv =>
      rw [if_pos rfl, hv]
      exact cellIn_eq_unlisted (by simp)
    · rw [cellIn_insertCell _ _ _ _ (by simp), if_pos rfl, if_pos rfl]
  · rw [if_neg hb]
    split
    · exact cellIn_filter_ne a b hb l
    · rw [cellIn_insertCell _ _ _ _ (by simp), if_neg hb, cellIn_filter_ne a b hb]

theorem mem_insertCell {a : Nat} {v : Int} {l : List (Nat × Int)} {c : Nat × Int} :
    c ∈ insertCell a v l ↔ c = (a, v) ∨ c ∈ l := by
  induction l with
  | nil => simp [insertCell]
  | cons d l ih =>
    obtain ⟨b, x⟩ := d
    unfold insertCell
    split
    · simp [ih]; tauto
    · simp

theorem insertCell_rising {a : Nat} {v : Int} {l : List (Nat × Int)}
    (hs : l.Pairwise (fun c d => c.1 < d.1)) (h : ∀ c ∈ l, c.1 ≠ a) :
    (insertCell a v l).Pairwise (fun c d => c.1 < d.1) := by
  induction l with
  | nil => simp [insertCell]
  | cons c l ih =>
    obtain ⟨b, x⟩ := c
    have hb : b ≠ a := h (b, x) (by simp)
    have hs' := List.pairwise_cons.1 hs
    unfold insertCell
    split
    · next hlt =>
      refine List.pairwise_cons.2 ⟨fun d hd => ?_, ih hs'.2 fun c hc => h c (by simp [hc])⟩
      rcases mem_insertCell.1 hd with rfl | hd
      · exact hlt
      · exact hs'.1 d hd
    · refine List.pairwise_cons.2 ⟨fun d hd => ?_, hs⟩
      rcases List.mem_cons.1 hd with rfl | hd
      · show a < b; omega
      · have : b < d.1 := hs'.1 d hd
        show a < d.1; omega

@[simp] theorem write_length (m : Memory) (a : Nat) (v : Int) : (m.write a v).length = m.length := by
  unfold Memory.write; split <;> rfl

/-- A write keeps the canonical form. -/
theorem write_wf {m : Memory} (a : Nat) (v : Int) (h : m.wf) : (m.write a v).wf := by
  unfold Memory.write
  split
  · next ha =>
    obtain ⟨hs, hm⟩ := h
    have hf : ∀ c ∈ m.cells.filter (fun c => c.1 != a), c.1 < m.length ∧ c.2 ≠ Memory.unlisted :=
      fun c hc => hm c (List.mem_filter.1 hc).1
    unfold setCell
    split
    · exact ⟨hs.filter _, hf⟩
    · next hv =>
      refine ⟨insertCell_rising (hs.filter _) (by simp), fun c hc => ?_⟩
      rcases mem_insertCell.1 hc with rfl | hc
      · exact ⟨ha, hv⟩
      · exact hf c hc
  · exact h

theorem mem_cellsOfWords {a : Nat} {image : List Int} {c : Nat × Int} (h : c ∈ cellsOfWords a image) :
    a ≤ c.1 ∧ c.1 < a + image.length ∧ c.2 ≠ Memory.unlisted := by
  induction image generalizing a with
  | nil => simp [cellsOfWords] at h
  | cons v rest ih =>
    unfold cellsOfWords at h
    split at h
    · have := ih h
      exact ⟨by omega, by simp only [List.length_cons]; omega, this.2.2⟩
    · next hv =>
      rcases List.mem_cons.1 h with rfl | h
      · exact ⟨Nat.le_refl _, by simp, hv⟩
      · have := ih h
        exact ⟨by omega, by simp only [List.length_cons]; omega, this.2.2⟩

/-- The memory built from an image is canonical. -/
theorem ofWords_wf (image : List Int) : (Memory.ofWords image).wf := by
  refine ⟨?_, fun c hc => ?_⟩
  · show (cellsOfWords 0 image).Pairwise _
    generalize 0 = a
    induction image generalizing a with
    | nil => simp [cellsOfWords]
    | cons v rest ih =>
      unfold cellsOfWords
      split
      · exact ih _
      · refine List.pairwise_cons.2 ⟨fun d hd => ?_, ih _⟩
        have := mem_cellsOfWords hd
        show a < d.1; omega
  · have := mem_cellsOfWords hc
    exact ⟨by simpa [Memory.ofWords] using this.2.1, this.2.2⟩

/-- Growing keeps the canonical form. -/
theorem grow_wf {m : Memory} (n : Nat) (h : m.wf) : (m.grow n).wf :=
  ⟨h.1, fun c hc => ⟨Nat.lt_of_lt_of_le (h.2 c hc).1 (Nat.le_max_left _ _), (h.2 c hc).2⟩⟩

/-- Writing a sequence of words keeps the canonical form. -/
theorem writeWords_wf {m : Memory} (ws : List Int) (a : Nat) (h : m.wf) : (m.writeWords a ws).wf := by
  induction ws generalizing m a with
  | nil => exact h
  | cons v rest ih => exact ih (a + 1) (write_wf a v h)

/-- The memory of a commit is canonical when the memory before it is. -/
theorem memAfter_wf {m : Memory} (e : Effects) (h : m.wf) : (e.memAfter m).wf := by
  unfold Effects.memAfter
  split
  · exact write_wf _ _ h
  · exact h

@[simp] theorem memAfter_length (e : Effects) (m : Memory) : (e.memAfter m).length = m.length := by
  unfold Effects.memAfter; split <;> simp

/-- Loading an instruction keeps the canonical form. -/
theorem withFetchWord_mem_wf {s : State} (nbits w : Nat) (h : s.mem.wf) : (s.withFetchWord nbits w).mem.wf :=
  writeWords_wf _ _ (grow_wf _ h)

/-- The memory at reset is canonical. -/
theorem reset_mem_wf : State.reset.mem.wf := by decide

end Sys2Proof.Machine
end

