-- ==== Sys2Proof/Laws/PerInstr.lean ====
section
/-! SUPPORT. Statements about each instruction as syntax, one lemma per constructor. -/

namespace Sys2Proof.Laws.EncodedWord

/-- The instruction word lies between 1 and 11199, its low two decimal digits are the operation, and the instruction
occupies its word and its argument words (rules R70, R71, R73 and R82). -/
def Statement (i : Instr) : Prop :=
  1 ≤ encode i ∧ encode i ≤ 11199 ∧ encode i % 100 = i.operation ∧ i.length = 1 + i.nargs

theorem add (m0 m1 m2 : Mode) : Statement (.add m0 m1 m2) := by cases m0 <;> cases m1 <;> cases m2 <;> (unfold Statement; decide)
theorem mul (m0 m1 m2 : Mode) : Statement (.mul m0 m1 m2) := by cases m0 <;> cases m1 <;> cases m2 <;> (unfold Statement; decide)
theorem input (m0 m1 m2 : Mode) : Statement (.input m0 m1 m2) := by cases m0 <;> cases m1 <;> cases m2 <;> (unfold Statement; decide)
theorem output (m0 m1 m2 : Mode) : Statement (.output m0 m1 m2) := by cases m0 <;> cases m1 <;> cases m2 <;> (unfold Statement; decide)
theorem jumpIfTrue (m0 m1 m2 : Mode) : Statement (.jumpIfTrue m0 m1 m2) := by
  cases m0 <;> cases m1 <;> cases m2 <;> (unfold Statement; decide)
theorem jumpIfFalse (m0 m1 m2 : Mode) : Statement (.jumpIfFalse m0 m1 m2) := by
  cases m0 <;> cases m1 <;> cases m2 <;> (unfold Statement; decide)
theorem lessThan (m0 m1 m2 : Mode) : Statement (.lessThan m0 m1 m2) := by
  cases m0 <;> cases m1 <;> cases m2 <;> (unfold Statement; decide)
theorem equals (m0 m1 m2 : Mode) : Statement (.equals m0 m1 m2) := by cases m0 <;> cases m1 <;> cases m2 <;> (unfold Statement; decide)
theorem terminate (m0 m1 m2 : Mode) : Statement (.terminate m0 m1 m2) := by
  cases m0 <;> cases m1 <;> cases m2 <;> (unfold Statement; decide)

end Sys2Proof.Laws.EncodedWord
end

