-- ==== Sys2Proof/Tests/Slice0.lean ====
section
/-! SUPPORT. Tests of the model against the encodings and vectors the spec gives (the source of each is named), the smoke
tests of WellFormed, and for every obligation with hypotheses a concrete state and operands that meet them. -/

namespace Sys2Proof.Tests

open Sys2Proof Sys2Proof.Machine

/-- The state a step answers, if it answers one. -/
def nextOf : Host.Outcome State Fault Refusal → Option State
  | .next t => some t
  | .fault _ => none
  | .refused _ => none

/-- An instance with the given parameters, memory and input, at index 0. -/
def inst (p : Params) (image input : List Int) : State :=
  ⟨p, Memory.ofWords image, 0, input, [], .running, none⟩

/-- An instance at the parameters of spec/95_test_vectors.md. -/
def std (image input : List Int) : State := inst Params.default image input

/-- Parameters with 16-bit words. -/
def p16 (m : OverflowMode) : Params := ⟨16, m, none⟩

/-- Parameters with a bounded log. -/
def bounded (K : Nat) : Params := ⟨64, .fault, some K⟩

/-- The memory and the pointer after one step. -/
def memPc (s : State) : Option (List Int × Int) := (nextOf (step s)).map fun t => (t.mem.toWords, t.pc)

/-- The queue, the log and the pointer after one step. -/
def ioPc (s : State) : Option (List Int × List Int × Int) := (nextOf (step s)).map fun t => (t.inQueue, t.outLog, t.pc)

/-- The error, the memory and the pointer after one step. -/
def errPc (s : State) : Option (Option Err × List Int × Int) := (nextOf (step s)).map fun t => (t.err, t.mem.toWords, t.pc)

/-! ### Decoding: the word of each operation written out digit by digit from rules R71 and R73, and the vectors V-D -/

/-- `C B A` = `0 0 0`, operation `01` (V-D-1). -/
theorem test_decode_add : decode 00001 = .ok (.add .position .position .position) := by decide

/-- `C B A` = `0 1 0`, operation `02` (V-D-2). -/
theorem test_decode_mul : decode 01002 = .ok (.mul .position .immediate .position) := by decide

/-- `C B A` = `0 0 1`, operation `03` (V-D-4). -/
theorem test_decode_input : decode 00103 = .ok (.input .immediate .position .position) := by decide

/-- `C B A` = `0 0 1`, operation `04` (V-D-5). -/
theorem test_decode_output : decode 00104 = .ok (.output .immediate .position .position) := by decide

/-- `C B A` = `0 1 1`, operation `05` (V-D-6). -/
theorem test_decode_jumpIfTrue : decode 01105 = .ok (.jumpIfTrue .immediate .immediate .position) := by decide

/-- `C B A` = `0 1 0`, operation `06`. -/
theorem test_decode_jumpIfFalse : decode 01006 = .ok (.jumpIfFalse .position .immediate .position) := by decide

/-- `C B A` = `1 0 0`, operation `07`. -/
theorem test_decode_lessThan : decode 10007 = .ok (.lessThan .position .position .immediate) := by decide

/-- `C B A` = `0 1 1`, operation `08` (V-D-8). -/
theorem test_decode_equals : decode 01108 = .ok (.equals .immediate .immediate .position) := by decide

/-- `C B A` = `1 1 1`, operation `99` (V-D-10). -/
theorem test_decode_terminate : decode 11199 = .ok (.terminate .immediate .immediate .immediate) := by decide

/-- Rejections by operation: V-D-11 to V-D-14. -/
theorem test_decode_rejects_operation :
    decode 0 = .error (.invalidOpCode 0) ∧ decode 9 = .error (.invalidOpCode 9) ∧
    decode 98 = .error (.invalidOpCode 98) ∧ decode 100 = .error (.invalidOpCode 100) := by decide

/-- Rejections by mode digit, before the operation check: V-D-15 to V-D-19. -/
theorem test_decode_rejects_mode :
    decode 200 = .error (.invalidParamMode 0 2) ∧ decode 3202 = .error (.invalidParamMode 0 2) ∧
    decode 20010 = .error (.invalidParamMode 2 2) ∧ decode 21002 = .error (.invalidParamMode 2 2) ∧
    decode 99999 = .error (.invalidParamMode 0 9) := by decide

/-- Rejections by range, before the mode check: V-D-20 to V-D-24. -/
theorem test_decode_rejects_range :
    decode (-1) = .error (.invalidOpCode (-1)) ∧ decode (-101) = .error (.invalidOpCode (-101)) ∧
    decode 100001 = .error (.invalidOpCode 100001) ∧ decode 100099 = .error (.invalidOpCode 100099) ∧
    decode 2000000 = .error (.invalidOpCode 2000000) := by decide

/-- What the Decoder block delivers for 1105 (rules R73 and R81). -/
theorem test_decoder_block :
    decoderBlock 1105 = .ok ⟨⟨5, .immediate, .immediate, .position⟩, 2, 3⟩ := by decide

/-- A table word and its first step after reset: 1101 with argument words 2, 3 and 0, laid out in 64-bit words. -/
theorem test_table_word :
    decodeTableWord 64 1101 = some (.add .immediate .immediate .position) ∧ decodeTableWord 64 200 = none ∧
    memPc (State.reset.withFetchWord 256 (1101 + 2 * 2 ^ 64 + 3 * 2 ^ 128)) = some ([5, 2, 3, 0], 4) := by decide

/-- The assembler (rules R101 to R103), on lines of program P2. -/
theorem test_assemble :
    assembleProgram [.mul (.pos 28) (.imm (-1)) (.pos 29), .jumpIfTrue (.pos 31) (.imm 24), .terminate, .word [0, 0]] =
      [1002, 28, -1, 29, 1005, 31, 24, 99, 0, 0] ∧
    asmText (.mul (.pos 28) (.imm (-1)) (.pos 29)) = "Mul [28], #-1, [29]" := by decide

/-! ### WellFormed: an ill-formed term for each check, refused -/

theorem test_wf_refuses_narrow_word : ¬ (Params.mk 15 .fault none).wf ∧ (p16 .fault).wf := by decide

theorem test_wf_refuses_long_image :
    ¬ ImageWf 16 (List.replicate 32765 0) ∧
    create (p16 .fault) (List.replicate 32765 0) [] = .error .imageTooLong := by
  have h : ¬ (List.replicate 32765 (0 : Int)).length ≤ maxMemLen 16 := by rw [List.length_replicate]; decide
  exact ⟨fun w => h w.1, by unfold create; rw [if_neg (not_not_intro (by decide))]; exact if_pos h⟩

theorem test_wf_refuses_image_word :
    ¬ ImageWf 16 [99, 32768] ∧ ImageWf 16 [99, 32767, -32768] ∧
    create (p16 .fault) [99, -32769] [] = .error .imageWordOutOfRange := by decide

theorem test_wf_refuses_input_word :
    ¬ WordsFit 16 [0, -32769] ∧ create (p16 .fault) [99] [32768] = .error .inputWordOutOfRange ∧
    create ⟨15, .fault, none⟩ [99] [] = .error .wordTooNarrow := by decide

theorem test_wf_refuses_operand : ¬ (Operand.imm 32768).wf 16 ∧ ¬ (Operand.pos (-32769)).wf 16 := by decide

theorem test_wf_refuses_line :
    ¬ (Asm.add (.imm 0) (.imm 32768) (.pos 0)).wf 16 ∧ ¬ (Asm.jumpIfTrue (.imm 1) (.imm 32768)).wf 16 ∧
    ¬ (Asm.input (.pos 32768)).wf 16 ∧ ¬ (Asm.output (.imm 32768)).wf 16 ∧ ¬ (Asm.word [32768]).wf 16 := by
  simp only [Asm.wf]; decide

/-! ### One step: vectors of spec/95_test_vectors.md -/

/-- V-A-3: the target is both sources. -/
theorem test_add_aliased : memPc (std [1, 5, 5, 5, 99, 21] []) = some ([1, 5, 5, 5, 99, 42], 4) := by decide

/-- V-A-7 and V-A-8: overflow at 16 bits, Fault and Wrap. -/
theorem test_add_overflow :
    errPc (inst (p16 .fault) [1101, 32767, 1, 5, 99, 0] []) =
      some (some (.arithmeticOverflow .add), [1101, 32767, 1, 5, 99, 0], 0) ∧
    memPc (inst (p16 .wrap) [1101, 32767, 1, 5, 99, 0] []) = some ([1101, 32767, 1, 5, 99, -32768], 4) := by decide

/-- V-A-4: the square of a negative word. -/
theorem test_mul_aliased : memPc (std [2, 5, 5, 5, 99, -9] []) = some ([2, 5, 5, 5, 99, 81], 4) := by decide

/-- V-A-9 and V-A-10: the product of -1 and the most negative word. -/
theorem test_mul_overflow :
    errPc (inst (p16 .fault) [1102, -1, -32768, 5, 99, 0] []) =
      some (some (.arithmeticOverflow .mul), [1102, -1, -32768, 5, 99, 0], 0) ∧
    memPc (inst (p16 .wrap) [1102, -1, -32768, 5, 99, 0] []) = some ([1102, -1, -32768, 5, 99, -32768], 4) := by decide

/-- V-IO-1: one value is consumed. -/
theorem test_input :
    memPc (std [3, 3, 99, 0] [-8, 4]) = some ([3, 3, 99, -8], 2) ∧ ioPc (std [3, 3, 99, 0] [-8, 4]) = some ([4], [], 2) := by
  decide

/-- V-IO-8 and V-IO-6: the target check comes before the empty-queue check. -/
theorem test_input_failures :
    errPc (std [103, 3, 99, 0] []) = some (some (.immediateTargetParam 0), [103, 3, 99, 0], 0) ∧
    errPc (std [3, 0, 99] []) = some (some .inputExhausted, [3, 0, 99], 0) := by decide

/-- V-IO-4: a Position argument outputs the word it names. -/
theorem test_output : ioPc (std [4, 0, 99] []) = some ([], [4], 2) := by decide

/-- V-IO-5, at its second instruction: a log of capacity 1 that is full. -/
theorem test_output_overflow :
    (nextOf (step ⟨bounded 1, Memory.ofWords [104, 1, 104, 2, 99], 2, [], [1], .running, none⟩)).map
      (fun t => (t.err, t.outLog, t.pc)) = some (some .outputOverflow, [1], 2) := by decide

/-- V-J-1 and V-J-3: -1 is not truthy. -/
theorem test_jumpIfTrue :
    ioPc (std [1105, 1, 7, 0, 0, 0, 0, 99] []) = some ([], [], 7) ∧
    ioPc (std [1105, -1, 7, 99, 0, 0, 0, 99] []) = some ([], [], 3) := by decide

/-- V-J-7: the target is resolved though the jump is not taken. -/
theorem test_jumpIfTrue_resolves_target :
    errPc (std [105, 0, 50, 99] []) = some (some (.positionOutOfBounds 1 50), [105, 0, 50, 99], 0) := by decide

/-- V-J-5 and V-J-6: -5 is not truthy, so JumpIfFalse jumps. -/
theorem test_jumpIfFalse :
    ioPc (std [1106, -5, 7, 0, 0, 0, 0, 99] []) = some ([], [], 7) ∧
    ioPc (std [1106, 5, 7, 99, 0, 0, 0, 99] []) = some ([], [], 3) := by decide

/-- V-C-8 and V-C-10: a signed comparison of the extreme words, and a target that is the left source. -/
theorem test_lessThan :
    memPc (std [7, 5, 6, 5, 99, -3, 2] []) = some ([7, 5, 6, 5, 99, 1, 2], 4) ∧
    memPc (std [1107, -9223372036854775808, 9223372036854775807, 0, 99] []) =
      some ([1, -9223372036854775808, 9223372036854775807, 0, 99], 4) := by decide

/-- V-C-2: equal values are not less. -/
theorem test_lessThan_equal : memPc (std [1107, 5, 5, 0, 99] []) = some ([0, 5, 5, 0, 99], 4) := by decide

/-- V-C-9 and V-C-7. -/
theorem test_equals :
    memPc (std [8, 5, 5, 5, 99, 13] []) = some ([8, 5, 5, 5, 99, 1], 4) ∧
    memPc (std [1108, -1, 1, 0, 99] []) = some ([0, -1, 1, 0, 99], 4) := by decide

/-- V-C-6: an Immediate target. -/
theorem test_equals_immediate_target :
    errPc (std [11108, 1, 1, 0, 99] []) = some (some (.immediateTargetParam 2), [11108, 1, 1, 0, 99], 0) := by decide

/-- V-T-4: Terminate leaves the queue. -/
theorem test_terminate :
    nextOf (step (std [99, 3, 0] [1, 2])) =
      some ⟨Params.default, Memory.ofWords [99, 3, 0], 0, [1, 2], [], .halted, none⟩ := by decide

/-- V-R-4, V-R-7 and V-S-2: failures of the resolver and of the fetch. -/
theorem test_resolver_and_fetch_failures :
    errPc (std [1, 0, 0] []) = some (some (.operandFetchOutOfBounds 2 3), [1, 0, 0], 0) ∧
    errPc (std [1, 9, -1, 0, 99] []) = some (some (.positionOutOfBounds 0 9), [1, 9, -1, 0, 99], 0) ∧
    errPc (std [] []) = some (some (.pcOutOfBounds 0), [], 0) := by decide

/-- P6: a word written by step 1 is the instruction of step 2. -/
theorem test_self_modifying :
    runFor 2 (std [1101, 1, 98, 4, 0] []) =
      ⟨Params.default, Memory.ofWords [1101, 1, 98, 4, 99], 4, [], [], .halted, none⟩ := by decide

/-- STATUS and ERR_VALUE of V-R-7, written out from rules R33 and R190: ERR_ARG 0, ERR_CODE 3, STATE 2; value 9. -/
theorem test_status_register :
    (nextOf (step (std [1, 9, -1, 0, 99] []))).map (fun t => (statusReg t, errValueReg t)) =
      some (0b0000000000001110#16, 9) := by decide

/-! ### Witnesses: concrete states and operands that meet the hypotheses of an obligation, all together -/

/-- A Running instance whose memory holds `image`, at index `pc`. -/
def atPc (image : List Int) (pc : Int) : State := ⟨Params.default, Memory.ofWords image, pc, [], [], .running, none⟩

theorem witness_DecoderChecksRangeThenModesThenOperation :
    (-1 : Int) < 0 ∧ (100000 : Int) ≤ 100000 ∧
    (∀ k : Fin 3, ∃ w ∈ ([99999, 92101, 21199] : List Int), 0 ≤ w ∧ w < 100000 ∧
      (∀ j : Fin 3, j < k → w / 10 ^ (2 + j.val) % 10 ≤ 1) ∧ 2 ≤ w / 10 ^ (2 + k.val) % 10) ∧
    (∀ w ∈ ([0, 9, 98, 11100] : List Int), 0 ≤ w ∧ w < 100000 ∧
      (∀ j : Fin 3, w / 10 ^ (2 + j.val) % 10 ≤ 1) ∧ ¬ (1 ≤ w % 100 ∧ w % 100 ≤ 8 ∨ w % 100 = 99)) ∧
    (∀ w ∈ ([1, 8, 11108, 11199] : List Int), 0 ≤ w ∧ w < 100000 ∧
      (∀ j : Fin 3, w / 10 ^ (2 + j.val) % 10 ≤ 1) ∧ (1 ≤ w % 100 ∧ w % 100 ≤ 8 ∨ w % 100 = 99)) := by decide

theorem witness_FieldsAreExtractedForEveryOperation : 0 ≤ 99 ∧ 99 ≤ 99 := by decide

theorem witness_LengthIsAFunctionOfTheOperation :
    decode 11108 = .ok (.equals .immediate .immediate .immediate) ∧ decode 20099 = .error (.invalidParamMode 2 2) ∧
    decoderBlock 11108 = .ok ⟨⟨8, .immediate, .immediate, .immediate⟩, 3, 4⟩ ∧
    decoderBlock 3 = .ok ⟨⟨3, .position, .position, .position⟩, 1, 2⟩ ∧
    decoderBlock 6 = .ok ⟨⟨6, .position, .position, .position⟩, 2, 3⟩ ∧
    decoderBlock 99 = .ok ⟨⟨99, .position, .position, .position⟩, 0, 1⟩ := by decide

theorem witness_UnusedModeDigitsChangeNothing :
    decode 11103 = .ok (.input .immediate .immediate .immediate) ∧
    decode 103 = .ok (.input .immediate .position .position) ∧ (11103 : Int) % 100 = 103 % 100 ∧
    ∀ k : Fin 3, k.val < (Instr.input .immediate .immediate .immediate).nargs →
      (11103 : Int) / 10 ^ (2 + k.val) % 10 = 103 / 10 ^ (2 + k.val) % 10 := by decide

theorem witness_DisassemblyInvertsAssembly :
    instrOfAsm (.output (.imm (-5))) = some (.output .immediate .position .position) ∧
    instrOfAsm .terminate = some (.terminate .position .position .position) := by decide

theorem witness_MemoryWordIsTheLastWritten :
    2 < (Memory.ofWords [7, 8, 9]).length ∧ (Memory.ofWords [7, 8, 9]).length ≤ 3 := by decide

theorem witness_EqualReadsMeanEqualMemory :
    (Memory.ofWords [7, 0, 9]).wf ∧ (Memory.ofWords [7, 0, 9]).length = 3 ∧ (0 : Nat) ≠ 2 := by decide

theorem witness_StepRunsTheDecodedInstruction :
    (atPc [0, 99] 1).runState = .running ∧ 0 ≤ (atPc [0, 99] 1).pc ∧ (atPc [0, 99] 1).pc < (atPc [0, 99] 1).mem.length ∧
    decode ((atPc [0, 99] 1).mem.cell (atPc [0, 99] 1).pc.toNat) = .ok (.terminate .position .position .position) := by
  decide

theorem witness_FetchReadsMemoryOrFails :
    (0 ≤ (atPc [0, 99] 1).pc ∧ (atPc [0, 99] 1).pc < (atPc [0, 99] 1).mem.length) ∧
    ((atPc [0, 99] 2).runState = .running ∧ (atPc [0, 99] 2).mem.length ≤ (atPc [0, 99] 2).pc) ∧
    ((atPc [0, 99] (-1)).runState = .running ∧ (atPc [0, 99] (-1)).pc < 0) := by decide

/-- One word for each side of the rule: a mode digit 2, and an operation 98. -/
theorem witness_IllegalEncodingsFailTheRun :
    (std [21199] []).runState = .running ∧ (std [21199] []).mem.InRange (std [21199] []).pc ∧
    nextOf (step (std [21199] [])) = some (failedWith (std [21199] []) (.invalidParamMode 2 2)) ∧
    (std [11198] []).runState = .running ∧ (std [11198] []).mem.InRange (std [11198] []).pc ∧
    nextOf (step (std [11198] [])) = some (failedWith (std [11198] []) (.invalidOpCode 11198)) := by decide

theorem witness_OnlyRunningStatesStep :
    (std [99] []).runState = .running ∧ ({ std [99] [] with runState := .halted } : State).runState = .halted ∧
    (failedWith (std [99] []) .inputExhausted).runState = .failed := by decide

/-- For FailureChangesOnlyStateAndErr, FailedInstructionFailsAgain, and the failing clause of
PointerMovesOnlyAsTheTableSays. -/
theorem witness_failing_step : ∃ t, step (std [3, 0, 99] []) = .next t ∧ t.runState = .failed := ⟨_, rfl, by decide⟩

/-- For OnlyTerminateHalts and the halting clause of PointerMovesOnlyAsTheTableSays. -/
theorem witness_halting_step : ∃ t, step (std [11199] []) = .next t ∧ t.runState = .halted := ⟨_, rfl, by decide⟩

/-- For PointerMovesOnlyAsTheTableSays: a step of each of the four kinds that stays Running. -/
theorem witness_PointerMovesOnlyAsTheTableSays :
    (∃ t, step (std [1108, 8, 8, 0] []) = .next t ∧ t.runState = .running) ∧
    (∃ t, step (std [104, 8] []) = .next t ∧ t.runState = .running) ∧
    (∃ t, step (std [1105, 1, -1] []) = .next t ∧ t.runState = .running) ∧
    (∃ t, step (std [1106, 1, -1] []) = .next t ∧ t.runState = .running) :=
  ⟨⟨_, rfl, by decide⟩, ⟨_, rfl, by decide⟩, ⟨_, rfl, by decide⟩, ⟨_, rfl, by decide⟩⟩

theorem witness_EachInstructionRaisesOnlyItsErrors :
    ∃ t, Fetches (std [1, 9, -1, 0, 99] []) (.add .position .position .position) ∧
      step (std [1, 9, -1, 0, 99] []) = .next t ∧ t.runState = .failed := ⟨_, by decide, rfl, by decide⟩

theorem witness_OnlyOutputAppendsToTheLog :
    ∃ t, step (std [104, 42, 99] []) = .next t ∧ t.outLog ≠ (std [104, 42, 99] []).outLog := ⟨_, rfl, by decide⟩

theorem witness_OnlyInputConsumesTheQueue :
    ∃ t, step (std [3, 3, 99, 0] [-8, 4]) = .next t ∧ t.inQueue ≠ (std [3, 3, 99, 0] [-8, 4]).inQueue :=
  ⟨_, rfl, by decide⟩

theorem witness_OnlyTheTargetWordChanges :
    ∃ t, step (std [1101, 2, 3, 5, 99, 0] []) = .next t ∧
      t.mem.cell 5 ≠ (std [1101, 2, 3, 5, 99, 0] []).mem.cell 5 := ⟨_, rfl, by decide⟩

theorem witness_LengthAndParametersNeverChange : (std [1101, 1, 98, 4, 0] []).mem.wf := by decide

theorem witness_WrittenInstructionWordRunsNext :
    let s := std [1101, 1, 98, 4, 0] []
    let u := std [3, 2, 0] [99]
    (Fetches s (.add .immediate .immediate .position) ∧ ArgReady s 0 .immediate ∧ ArgReady s 1 .immediate ∧
      ArgReady s 2 .position ∧ (targetIndex s 2 : Int) = s.pc + 4 ∧
      InWord s.params.wordBits (operandValue s 0 .immediate + operandValue s 1 .immediate) ∧
      decode (operandValue s 0 .immediate + operandValue s 1 .immediate) =
        .ok (.terminate .position .position .position)) ∧
    (Fetches u (.input .position .position .position) ∧ ArgReady u 0 .position ∧
      (targetIndex u 0 : Int) = u.pc + 2 ∧ u.inQueue = 99 :: [] ∧
      decode 99 = .ok (.terminate .position .position .position)) := by decide

theorem witness_LoadedInstructionRunsNext :
    decode (tableWord State.reset.params.wordBits 64 99 0) = .ok (.terminate .position .position .position) := by decide

/-- Both clauses, at argument 1 with argument 0 ready: the word beyond memory, and Position words `-1` and `N`. -/
theorem witness_FirstUnresolvedArgumentFailsTheInstruction :
    let i := Instr.add .immediate .position .position
    (1 < i.nargs ∧ 0 ≤ (std [101, 0] []).pc ∧ ArgReady (std [101, 0] []) 0 (i.mode 0) ∧
      ((std [101, 0] []).mem.length : Int) ≤ (std [101, 0] []).pc + 1 + 1) ∧
    (∀ w ∈ ([-1, 4] : List Int), ArgReady (std [101, 0, w, 0] []) 0 (i.mode 0) ∧
      (std [101, 0, w, 0] []).pc + 1 + 1 < (std [101, 0, w, 0] []).mem.length ∧ i.mode 1 = .position ∧
      (argWord (std [101, 0, w, 0] []) 1 < 0 ∨
        (std [101, 0, w, 0] []).mem.length ≤ argWord (std [101, 0, w, 0] []) 1)) := by decide

/-- Both modes, with the argument word at the last index and naming the last index. -/
theorem witness_ReadyArgumentResolvesToItsValue :
    ArgReady (std [4, 1] []) 0 .position ∧ ArgReady (std [104, -5] []) 0 .immediate := by decide

theorem witness_ImmediateTargetFailsBeforeOwnChecks :
    let s := std [11101, 9223372036854775807, 1, -1] []
    let u := std [103, 7] []
    (ArgReady s 0 .immediate ∧ ArgReady s 1 .immediate ∧ ArgReady s 2 .immediate) ∧ ArgReady u 0 .immediate := by decide

/-- Add's three clauses, at the edge of the 16-bit range: a sum that fits, and one too large in each mode. -/
theorem witness_AddWritesTheNarrowedSum :
    let image : List Int := [1101, 32767, 1, 5, 99, 0]
    let fits := inst (p16 .fault) [1101, 32766, 1, 5, 99, 0] []
    let wraps := inst (p16 .wrap) image []
    let faults := inst (p16 .fault) image []
    (∀ s ∈ [fits, wraps, faults], ArgReady s 0 .immediate ∧ ArgReady s 1 .immediate ∧ ArgReady s 2 .position) ∧
    InWord 16 (operandValue fits 0 .immediate + operandValue fits 1 .immediate) ∧
    (¬ InWord 16 (operandValue wraps 0 .immediate + operandValue wraps 1 .immediate) ∧
      wraps.params.overflowMode = .wrap) ∧
    (¬ InWord 16 (operandValue faults 0 .immediate + operandValue faults 1 .immediate) ∧
      faults.params.overflowMode = .fault) := by decide

/-- Mul's three clauses, at the edge of the 16-bit range. -/
theorem witness_MulWritesTheNarrowedProduct :
    let image : List Int := [1102, -1, -32768, 5, 99, 0]
    let fits := inst (p16 .fault) [1102, 1, -32768, 5, 99, 0] []
    let wraps := inst (p16 .wrap) image []
    let faults := inst (p16 .fault) image []
    (∀ s ∈ [fits, wraps, faults], ArgReady s 0 .immediate ∧ ArgReady s 1 .immediate ∧ ArgReady s 2 .position) ∧
    InWord 16 (operandValue fits 0 .immediate * operandValue fits 1 .immediate) ∧
    (¬ InWord 16 (operandValue wraps 0 .immediate * operandValue wraps 1 .immediate) ∧
      wraps.params.overflowMode = .wrap) ∧
    (¬ InWord 16 (operandValue faults 0 .immediate * operandValue faults 1 .immediate) ∧
      faults.params.overflowMode = .fault) := by decide

theorem witness_NarrowKeepsFaultsOrWraps :
    (p16 .fault).wf ∧ (p16 .wrap).wf ∧ InWord 16 32767 ∧ InWord 16 (-32768) ∧ ¬ InWord 16 32768 ∧ ¬ InWord 16 (-32769) ∧
    (p16 .fault).overflowMode = .fault ∧ (p16 .wrap).overflowMode = .wrap := by decide

theorem witness_InputStoresTheFrontOfTheQueue :
    (ArgReady (std [3, 1] [7]) 0 .position ∧ (std [3, 1] [7]).inQueue = 7 :: []) ∧
    (ArgReady (std [3, 1] []) 0 .position ∧ (std [3, 1] []).inQueue = []) := by decide

/-- An unbounded log, a log one short of its capacity, and a full one. -/
theorem witness_OutputAppendsItsValue :
    (ArgReady (std [104, 7] []) 0 .immediate ∧ (std [104, 7] []).params.outputCapacity = none) ∧
    (ArgReady (inst (bounded 1) [104, 7] []) 0 .immediate ∧ (inst (bounded 1) [104, 7] []).outLog.length ≠ 1) ∧
    (ArgReady (inst (bounded 0) [104, 7] []) 0 .immediate ∧
      (inst (bounded 0) [104, 7] []).params.outputCapacity = some 0 ∧
      (inst (bounded 0) [104, 7] []).outLog.length = 0) := by decide

/-- Conditions 1, 0 and -1, with a target in memory and one outside. -/
theorem witness_JumpsTestForStrictlyPositive :
    (∀ c ∈ ([1, 0, -1] : List Int), ArgReady (std [1105, c, 9] []) 0 .immediate ∧
      ArgReady (std [1105, c, 9] []) 1 .immediate ∧ operandValue (std [1105, c, 9] []) 0 .immediate = c) ∧
    0 < operandValue (std [1105, 1, 9] []) 0 .immediate ∧ operandValue (std [1105, 0, 9] []) 0 .immediate ≤ 0 ∧
    operandValue (std [1105, -1, 9] []) 0 .immediate ≤ 0 := by decide

/-- Targets `N` and `-1`. -/
theorem witness_JumpOutsideMemoryFailsAtTheNextFetch :
    let s := std [1105, 1, 3] []
    let u := std [1106, 0, -1] []
    (ArgReady s 0 .immediate ∧ ArgReady s 1 .immediate ∧ ¬ s.mem.InRange (operandValue s 1 .immediate) ∧
      0 < operandValue s 0 .immediate ∧ Fetches s (.jumpIfTrue .immediate .immediate .position)) ∧
    (ArgReady u 0 .immediate ∧ ArgReady u 1 .immediate ∧ ¬ u.mem.InRange (operandValue u 1 .immediate) ∧
      operandValue u 0 .immediate ≤ 0 ∧ Fetches u (.jumpIfFalse .immediate .immediate .position)) := by decide

/-- For LessThanWritesOneOrZero and EqualsWritesOneOrZero: left less than, equal to and greater than right. -/
theorem witness_comparisons :
    (∀ v ∈ ([-1, 0, 1] : List Int), ArgReady (std [1107, v, 0, 3] []) 0 .immediate ∧
      ArgReady (std [1107, v, 0, 3] []) 1 .immediate ∧ ArgReady (std [1107, v, 0, 3] []) 2 .position) ∧
    operandValue (std [1107, -1, 0, 3] []) 0 .immediate < operandValue (std [1107, -1, 0, 3] []) 1 .immediate ∧
    operandValue (std [1107, 0, 0, 3] []) 0 .immediate = operandValue (std [1107, 0, 0, 3] []) 1 .immediate ∧
    operandValue (std [1107, 1, 0, 3] []) 1 .immediate < operandValue (std [1107, 1, 0, 3] []) 0 .immediate := by decide

/-- Each of the four storing instructions answers a next state, its target resolving to index 5; and with an Immediate
target it resolves to no index. -/
theorem witness_StoringInstructionsFrame :
    let s := std [1101, 2, 3, 5, 99, 0] []
    (∃ t, exec (.add .immediate .immediate .position) s = .next t) ∧
    (∃ t, exec (.mul .immediate .immediate .position) s = .next t) ∧
    (∃ t, exec (.lessThan .immediate .immediate .position) s = .next t) ∧
    (∃ t, exec (.equals .immediate .immediate .position) s = .next t) ∧
    resolve s 2 .position = .ok (.position 5) ∧ (∃ t, exec (.add .immediate .immediate .immediate) s = .next t) ∧
    resolve s 2 .immediate = .ok (.immediate 5) :=
  ⟨⟨_, rfl⟩, ⟨_, rfl⟩, ⟨_, rfl⟩, ⟨_, rfl⟩, by decide, ⟨_, rfl⟩, by decide⟩

theorem witness_InputFrame :
    let s := std [3, 3, 99, 0] [-8, 4]
    (∃ t, exec (.input .position .position .position) s = .next t) ∧ resolve s 0 .position = .ok (.position 3) ∧
    (∃ t, exec (.input .immediate .position .position) s = .next t) ∧ resolve s 0 .immediate = .ok (.immediate 3) :=
  ⟨⟨_, rfl⟩, by decide, ⟨_, rfl⟩, by decide⟩

theorem witness_OutputAndJumpsFrame :
    let s := std [1105, 1, 7] []
    (∃ t, exec (.output .immediate .position .position) s = .next t) ∧
    (∃ t, exec (.jumpIfTrue .immediate .immediate .position) s = .next t) ∧
    (∃ t, exec (.jumpIfFalse .immediate .immediate .position) s = .next t) :=
  ⟨⟨_, rfl⟩, ⟨_, rfl⟩, ⟨_, rfl⟩⟩

/-- An instance whose first step adds and stores meets the invariant, and has that step. -/
theorem witness_EveryStepKeepsTheInvariant :
    (inst (p16 .wrap) [1101, 32767, 1, 0] [5]).Inv ∧
    ∃ t, step (inst (p16 .wrap) [1101, 32767, 1, 0] [5]) = .next t ∧ t.runState = .running := by
  refine ⟨⟨by decide, by decide, by decide, ?_, by decide, by decide, by decide, ?_, by decide, ?_⟩, _, rfl, by decide⟩
  · intro a
    show InWord 16 (cellIn a [(0, 1101), (1, 32767), (2, 1)])
    simp only [cellIn]
    split_ifs <;> decide
  · intro K h; cases h
  · intro e h; cases h

/-- For ConstructedInstancesKeepTheInvariant, ConstructionGivesEveryPieceItsValue and
StatusReportsFailureExactlyWhenFailed. -/
theorem witness_created : create (p16 .fault) [3, 0, 99] [7] = .ok (inst (p16 .fault) [3, 0, 99] [7]) := by decide

theorem witness_StoppedInstancesStayStopped :
    (runFor 5 (std [99] [])).runState ≠ .running ∧ (runFor 5 (std [99] [])).runState = .halted ∧
    (runFor 5 (std [3, 0, 99] [])).runState = .failed ∧ (runFor 5 (std [3, 0, 99] [])).err = some .inputExhausted ∧
    (runFor 5 (std [1105, 1, 0] [])).runState = .running := by decide

theorem witness_ChainHandsOverTheFullLog :
    (std [104, 5, 99] []).runState ≠ .halted ∧ (runFor 2 (std [104, 5, 99] [])).runState = .halted ∧
    create Params.default [3, 0, 99] ((runFor 2 (std [104, 5, 99] [])).outLog ++ [6]) = .ok (std [3, 0, 99] [5, 6]) ∧
    chain (runFor 2 (std [104, 5, 99] [])) Params.default [3, 0, 99] [6] = .ok (std [3, 0, 99] [5, 6]) := by decide

theorem witness_StatusRegisterFields :
    (std [99] []).err = none ∧
    (failedWith (std [99] []) (.positionOutOfBounds 0 (-1))).err = some (.positionOutOfBounds 0 (-1)) := by decide

theorem witness_OutputLogCannotBeObserved : (std [104, 5, 99] []).params.outputCapacity = none := by decide

theorem witness_UnconsumedInputCannotBeObserved :
    (runFor 3 (std [3, 0, 99] [7])).err ≠ some .inputExhausted := by decide

theorem witness_RunsCompose : (runFor (2 + 1) (std [1105, 1, 0] [])).runState = .running := by decide

end Sys2Proof.Tests
end

section
/-! The step keeps the invariant (O43): what words the width holds, what an operand or an error payload can be, and that
each way a step can end gives a state that meets `State.Inv`. -/

namespace Sys2Proof.Machine

/-! ### Words of the width -/

/-- The longest memory leaves room for an advance by the longest instruction (rule R9). -/
theorem maxMemLen_add_four {W : Nat} (hW : 16 ≤ W) : (maxMemLen W : Int) + 4 = 2 ^ (W - 1) := by
  have h4 : 2 ^ 2 ≤ 2 ^ (W - 1) := Nat.pow_le_pow_right (by decide) (by omega)
  have hN : maxMemLen W + 4 = 2 ^ (W - 1) := Nat.sub_add_cancel h4
  exact_mod_cast hN

/-- Every index of the longest memory, and the three that an advance or an argument fetch can reach past its end, is a
word (rule R9). -/
theorem inWord_of_le_maxMemLen {W : Nat} {a : Int} (hW : 16 ≤ W) (h0 : 0 ≤ a) (ha : a ≤ maxMemLen W + 3) :
    InWord W a := by
  have hmax := maxMemLen_add_four hW
  constructor <;> simp only [wmin, wmax] <;> omega

/-- The constants the model writes or reports, mode digits and operation numbers, are words. -/
theorem inWord_of_le_nine {W : Nat} {n : Nat} (hW : 16 ≤ W) (hn : n ≤ 9) : InWord W n := by
  have hpow : (2 : Int) ^ 15 ≤ 2 ^ (W - 1) := pow_le_pow_right₀ (by decide) (by omega)
  constructor <;> simp only [wmin, wmax] <;> omega

/-- Wrapping gives a word (rule R142). -/
theorem wrapWord_inWord {W : Nat} (hW : 16 ≤ W) (x : Int) : InWord W (wrapWord W x) := by
  have hpow : (2 : Int) ^ W = 2 ^ (W - 1) * 2 := by rw [← pow_succ, Nat.sub_add_cancel (by omega)]
  have hpos : (0 : Int) < 2 ^ W := by positivity
  have hlo := Int.emod_nonneg (x + 2 ^ (W - 1)) hpos.ne'
  have hhi := Int.emod_lt_of_pos (x + 2 ^ (W - 1)) hpos
  constructor <;> simp only [wmin, wmax, wrapWord] <;> omega

/-- An arithmetic result that is delivered is a word (rule R142). -/
theorem narrow_ok_inWord {p : Params} {op : ArithOp} {x v : Int} (hp : p.wf) (h : narrow p op x = .ok v) :
    InWord p.wordBits v := by
  rcases narrow_cases p op x with ⟨hx, hn⟩ | ⟨_, _, hn⟩ | ⟨_, _, hn⟩ <;> rw [hn] at h <;> cases h
  · exact hx
  · exact wrapWord_inWord hp x

/-! ### Memory -/

/-- Read after write (rule R56: a write out of range changes nothing). -/
theorem cell_write (m : Memory) (a b : Nat) (v : Int) :
    (m.write a v).cell b = if a < m.length ∧ b = a then v else m.cell b := by
  unfold Memory.write
  by_cases ha : a < m.length
  · simp only [ha, if_true, true_and]
    exact cellIn_setCell a b v m.cells
  · simp [ha]

/-- Writing a word into a memory of words leaves a memory of words. -/
theorem write_keeps_words {W : Nat} {m : Memory} {v : Int} (a : Nat) (hm : ∀ b, InWord W (m.cell b))
    (hv : InWord W v) (b : Nat) : InWord W ((m.write a v).cell b) := by
  rw [cell_write]
  split
  · exact hv
  · exact hm b

/-! ### The Decoder's errors -/

theorem digit_le_nine (w : Int) (k : Nat) : digit w k ≤ 9 := by
  unfold digit
  omega

/-- A mode digit that names no mode is at least 2. -/
theorem two_le_of_modeOfDigit_none {d : Nat} (h : modeOfDigit d = none) : 2 ≤ d := by
  match d, h with
  | d + 2, _ => omega

/-- A mode digit that is refused is reported with its value, 2 to 9 (rule R75). -/
theorem decodeMode_error {w : Int} {i : Fin 3} {e : Err} (h : decodeMode w i = .error e) :
    ∃ m, 2 ≤ m ∧ m ≤ 9 ∧ e = .invalidParamMode i m := by
  unfold decodeMode at h
  split at h
  · cases h
  · next hd => cases h; exact ⟨_, two_le_of_modeOfDigit_none hd, digit_le_nine w _, rfl⟩

/-- Field extraction refuses the word itself or one of its mode digits (rules R74 to R77). -/
theorem extractFields_error {w : Int} {e : Err} (h : extractFields w = .error e) :
    e = .invalidOpCode w ∨ ∃ i m, 2 ≤ m ∧ m ≤ 9 ∧ e = .invalidParamMode i m := by
  unfold extractFields at h
  split at h
  · cases h; exact .inl rfl
  · right
    rcases bind_error_iff.1 h with h0 | ⟨_, _, h⟩
    · exact ⟨0, decodeMode_error h0⟩
    rcases bind_error_iff.1 h with h1 | ⟨_, _, h⟩
    · exact ⟨1, decodeMode_error h1⟩
    rcases bind_error_iff.1 h with h2 | ⟨_, _, h⟩
    · exact ⟨2, decodeMode_error h2⟩
    · cases h

/-- Everything the Decoder can raise (rule R79). -/
theorem decode_error {w : Int} {e : Err} (h : decode w = .error e) :
    e = .invalidOpCode w ∨ ∃ i m, 2 ≤ m ∧ m ≤ 9 ∧ e = .invalidParamMode i m := by
  rcases bind_error_iff.1 h with h | ⟨c, _, h⟩
  · exact extractFields_error h
  · split at h <;> cases h
    exact .inl rfl

/-- What the Decoder raises for a word of the width is an error rule R190 allows. -/
theorem decode_error_fits {W : Nat} {w : Int} {e : Err} (hW : 16 ≤ W) (hw : InWord W w) (h : decode w = .error e) :
    e.Fits W := by
  rcases decode_error h with rfl | ⟨i, m, hlo, hhi, rfl⟩
  · exact ⟨hw, trivial⟩
  · exact ⟨inWord_of_le_nine hW hhi, hlo, hhi⟩

/-! ### What an instruction reads and raises in a state that meets the invariant -/

namespace State.Inv

variable {s t : State} (h : s.Inv)
include h

theorem argWord_inWord (i : Fin 3) : InWord s.params.wordBits (argWord s i) := h.mem_words _

theorem operandValue_inWord (i : Fin 3) (m : Mode) : InWord s.params.wordBits (operandValue s i m) := by
  cases m with
  | immediate => exact h.argWord_inWord i
  | position => exact h.mem_words _

/-- From a pointer in memory, every instruction's advance is a word (rule R9). -/
theorem advance_inWord {k : Int} (hpc : s.mem.InRange s.pc) (h0 : 0 ≤ k) (hk : k ≤ 4) :
    InWord s.params.wordBits (s.pc + k) := by
  have hlen : (s.mem.length : Int) ≤ maxMemLen s.params.wordBits := Int.ofNat_le.2 h.mem_len
  exact inWord_of_le_maxMemLen h.params_wf (by omega) (by omega)

/-- A Running state has no error (rule R32). -/
theorem err_none (hr : s.runState = .running) : s.err = none := by
  have hne : ¬ s.err.isSome := by simp [h.err_iff, hr]
  simpa using hne

/-- What an instruction raises is an error rule R190 allows. -/
theorem mayRaise_fits {i : Instr} {e : Err} (hpc : s.mem.InRange s.pc) (he : MayRaise i s e) :
    e.Fits s.params.wordBits := by
  have hconst {n : Nat} (hn : n ≤ 9) : InWord s.params.wordBits n := inWord_of_le_nine h.params_wf hn
  cases e with
  | operandFetchOutOfBounds k a =>
    obtain ⟨_, rfl, _⟩ := he
    refine ⟨?_, trivial⟩
    show InWord _ (s.pc + 1 + k.val)
    rw [add_assoc]
    exact h.advance_inWord hpc (by omega) (by omega)
  | positionOutOfBounds k r =>
    obtain ⟨_, _, rfl, _⟩ := he
    exact ⟨h.argWord_inWord k, trivial⟩
  | arithmeticOverflow op => exact ⟨hconst (by cases op <;> decide), trivial⟩
  | immediateTargetParam _ | inputExhausted | outputOverflow => exact ⟨hconst (n := 0) (by decide), trivial⟩
  | pcOutOfBounds _ | invalidOpCode _ | invalidParamMode _ _ => exact he.elim

/-! ### The parts of a commit, and failure -/

/-- Failure keeps the invariant when the error is one rule R190 allows. -/
theorem failedWith {e : Err} (he : e.Fits s.params.wordBits) : (failedWith s e).Inv :=
  { h with
    err_iff := by simp [Machine.failedWith]
    err_fits := fun e' he' => by cases he'; exact he }

theorem setPc {pc : Int} (hpc : InWord s.params.wordBits pc) : State.Inv { s with pc := pc } :=
  { h with pc_word := hpc }

theorem writeMem (a : Nat) {v : Int} (hv : InWord s.params.wordBits v) :
    State.Inv { s with mem := s.mem.write a v } :=
  { h with
    mem_wf := write_wf a v h.mem_wf
    mem_len := (write_length s.mem a v).trans_le h.mem_len
    mem_words := write_keeps_words a h.mem_words hv }

theorem popQueue {v : Int} {rest : List Int} (hq : s.inQueue = v :: rest) : State.Inv { s with inQueue := rest } :=
  { h with queue_words := fun x hx => h.queue_words x (hq ▸ List.mem_cons_of_mem v hx) }

/-- A log that is not full has room for one more value (rules R11 and R151). -/
theorem appendLog {v : Int} (hl : logFull s = false) (hv : InWord s.params.wordBits v) :
    State.Inv { s with outLog := s.outLog ++ [v] } :=
  { h with
    log_words := fun x hx => by
      rcases List.mem_append.1 hx with hx | hx
      · exact h.log_words x hx
      · rwa [List.mem_singleton.1 hx]
    log_fits := fun K hK => by
      have hK : s.params.outputCapacity = some K := hK
      have hle : s.outLog.length ≤ K := h.log_fits K hK
      have hne : s.outLog.length ≠ K := fun heq => by simp [logFull_iff.2 (heq ▸ hK)] at hl
      simp only [List.length_append, List.length_singleton]
      omega }

theorem halt (hr : s.runState = .running) : State.Inv { s with runState := .halted } :=
  { h with err_iff := by simp [h.err_none hr] }

/-! ### The step -/

/-- An instruction that stores a word through its target and advances keeps the invariant. -/
theorem writeMem_advance (a : Nat) {v k : Int} (hpc : s.mem.InRange s.pc) (hv : InWord s.params.wordBits v)
    (h0 : 0 ≤ k) (hk : k ≤ 4) : State.Inv { s with mem := s.mem.write a v, pc := s.pc + k } :=
  (h.writeMem a hv).setPc (h.advance_inWord hpc h0 hk)

/-- An instruction that completes keeps the invariant. -/
theorem completed {i : Instr} (hr : s.runState = .running) (hpc : s.mem.InRange s.pc) (hc : Completed i s t) :
    t.Inv := by
  cases i with
  | add m0 m1 m2 | mul m0 m1 m2 =>
    obtain ⟨_, _, v, hn, rfl⟩ := hc
    exact h.writeMem_advance _ hpc (narrow_ok_inWord h.params_wf hn) (by decide) (by decide)
  | lessThan m0 m1 m2 | equals m0 m1 m2 =>
    obtain ⟨_, _, rfl⟩ := hc
    exact h.writeMem_advance _ hpc (boolWord_fits h.params_wf _) (by decide) (by decide)
  | input m0 m1 m2 =>
    obtain ⟨_, _, v, rest, hq, rfl⟩ := hc
    have hv : InWord s.params.wordBits v := h.queue_words v (by simp [hq])
    exact (h.popQueue hq).writeMem_advance _ hpc hv (by decide) (by decide)
  | output m0 m1 m2 =>
    obtain ⟨hl, rfl⟩ := hc
    exact (h.appendLog hl (h.operandValue_inWord 0 m0)).setPc (h.advance_inWord hpc (by decide) (by decide))
  | jumpIfTrue m0 m1 m2 | jumpIfFalse m0 m1 m2 =>
    have hseq : InWord s.params.wordBits (s.pc + 3) := h.advance_inWord hpc (by decide) (by decide)
    have htgt : InWord s.params.wordBits (operandValue s 1 m1) := h.operandValue_inWord 1 m1
    cases hc
    apply h.setPc
    split <;> assumption
  | terminate m0 m1 m2 =>
    cases hc
    exact h.halt hr

/-- A step keeps the invariant, whichever of its stages it ends in. -/
theorem step (hs : step s = .next t) : t.Inv := by
  obtain ⟨hr, ⟨_, rfl⟩ | ⟨_, e, hd, rfl⟩ | ⟨i, ⟨_, hpc, _⟩, hx⟩⟩ := step_next_cases hs
  · exact h.failedWith ⟨h.pc_word, trivial⟩
  · exact h.failedWith (decode_error_fits h.params_wf (h.mem_words _) hd)
  · rcases exec_next_cases hx with hc | ⟨e, he, rfl⟩
    · exact h.completed hr hpc hc
    · exact h.failedWith (h.mayRaise_fits hpc he)

end State.Inv

end Sys2Proof.Machine

/-- Settles O43: a step fails in the fetch, in the decode or in the instruction, or completes an instruction, and each
of these keeps the invariant. -/
theorem everyStepKeepsTheInvariant : Obligations.EveryStepKeepsTheInvariant :=
  fun _ _ hinv hstep => hinv.step hstep

end

section
/-! What a step reports (rules R115 to R118): a Running step is the commit or the failure of one result, which reads
neither the run state nor the error (O17), and from which the step's frame can be read off. -/

namespace Sys2Proof.Machine

/-! ### The result of an instruction and of a step -/

/-- The effect record instruction `i` reports, or the error it raises (rule R115). -/
def instrEffects (i : Instr) (s : State) : Except Err Effects :=
  match i with
  | .add m0 m1 m2 =>
    withArgs3 s m0 m1 m2 fun p0 p1 p2 => arithEffects .add (value s.mem p0 + value s.mem p1) s p2
  | .mul m0 m1 m2 =>
    withArgs3 s m0 m1 m2 fun p0 p1 p2 => arithEffects .mul (value s.mem p0 * value s.mem p1) s p2
  | .input m0 _ _ => withArgs1 s m0 (inputEffects s)
  | .output m0 _ _ => withArgs1 s m0 (outputEffects s)
  | .jumpIfTrue m0 m1 _ =>
    withArgs2 s m0 m1 fun p0 p1 => .ok (jumpEffects (truthy (value s.mem p0)) (value s.mem p1) s)
  | .jumpIfFalse m0 m1 _ =>
    withArgs2 s m0 m1 fun p0 p1 => .ok (jumpEffects (!truthy (value s.mem p0)) (value s.mem p1) s)
  | .lessThan m0 m1 m2 =>
    withArgs3 s m0 m1 m2 fun p0 p1 p2 => compareEffects (decide (value s.mem p0 < value s.mem p1)) s p2
  | .equals m0 m1 m2 =>
    withArgs3 s m0 m1 m2 fun p0 p1 p2 => compareEffects (decide (value s.mem p0 = value s.mem p1)) s p2
  | .terminate _ _ _ => .ok { write := none, pop := false, append := none, next := .halt }

/-- The effect record of a whole step: fetch, decode, then the instruction's own (rule R122). -/
def stepEffects (s : State) : Except Err Effects := do
  let w ← fetch s
  let i ← decode w
  instrEffects i s

/-- Executing an instruction commits the effects it reports, or fails on the error it raises. -/
theorem exec_eq_complete (i : Instr) (s : State) : exec i s = complete s (instrEffects i s) := by
  cases i <;> rfl

/-- A Running step commits its effects or fails on its first error. -/
theorem step_of_running {s : State} (h : s.runState = .running) : step s = complete s (stepEffects s) := by
  simp only [step, h, stepEffects]
  cases fetch s with
  | error e => rfl
  | ok w =>
    simp only [ok_bind]
    cases decode w with
    | error e => rfl
    | ok i => exact exec_eq_complete i s

/-- A stopped state has no step (rule R121). -/
theorem runState_of_step_next {s t : State} (h : step s = .next t) : s.runState = .running :=
  (step_next_cases h).1

theorem step_next_effects {s t : State} (h : step s = .next t) :
    (∃ e, stepEffects s = .ok e ∧ t = commit s e) ∨ (∃ e, stepEffects s = .error e ∧ t = failedWith s e) :=
  complete_next (step_of_running (runState_of_step_next h) ▸ h)

/-- The parameters are fixed for the life of the machine (spec/00_scope.md section 3). -/
theorem step_params {s t : State} (h : step s = .next t) : t.params = s.params := by
  rcases step_next_effects h with ⟨e, _, rfl⟩ | ⟨e, _, rfl⟩ <;> rfl

/-- What a step reports does not depend on the run state or the error record. -/
theorem stepEffects_setRunState (s : State) (r : RunState) (e : Option Err) :
    stepEffects { s with runState := r, err := e } = stepEffects s := rfl

/-- A commit from a Running state does not fail. -/
theorem commit_runState_ne_failed {s : State} (h : s.runState = .running) (e : Effects) :
    (commit s e).runState ≠ .failed := by
  rw [commit_runState, h]
  unfold Effects.runStateAfter
  split <;> simp

/-! ### Everything an instruction can report -/

/-- `e` is an effect record instruction `i` can report in `s` (rule R115): what it writes goes to the address its target
argument resolves to. -/
def Reported (i : Instr) (s : State) (e : Effects) : Prop :=
  match i with
  | .add _ _ m2 | .mul _ _ m2 | .lessThan _ _ m2 | .equals _ _ m2 =>
    ∃ a v, resolve s 2 m2 = .ok (.position a) ∧ e = ⟨some (a, v), false, none, .goto (s.pc + 4)⟩
  | .input m0 _ _ =>
    ∃ a v rest, resolve s 0 m0 = .ok (.position a) ∧ s.inQueue = v :: rest ∧
      e = ⟨some (a, v), true, none, .goto (s.pc + 2)⟩
  | .output _ _ _ => ∃ v, e = ⟨none, false, some v, .goto (s.pc + 2)⟩
  | .jumpIfTrue _ _ _ | .jumpIfFalse _ _ _ => ∃ pc, e = ⟨none, false, none, .goto pc⟩
  | .terminate _ _ _ => e = ⟨none, false, none, .halt⟩

/-- Only a Position has an address (rule R97). -/
theorem eq_position_of_address_ok {p : Param} {k : Fin 3} {a : Nat} (h : address p k = .ok a) : p = .position a := by
  cases p with
  | immediate v => cases h
  | position b => cases h; rfl

theorem arithEffects_ok {op : ArithOp} {x : Int} {s : State} {p : Param} {e : Effects}
    (h : arithEffects op x s p = .ok e) :
    ∃ a v, p = .position a ∧ e = ⟨some (a, v), false, none, .goto (s.pc + 4)⟩ := by
  obtain ⟨a, ha, h⟩ := bind_ok_iff.1 h
  obtain ⟨v, _, h⟩ := bind_ok_iff.1 h
  exact ⟨a, v, eq_position_of_address_ok ha, by cases h; rfl⟩

theorem compareEffects_ok {b : Bool} {s : State} {p : Param} {e : Effects} (h : compareEffects b s p = .ok e) :
    ∃ a v, p = .position a ∧ e = ⟨some (a, v), false, none, .goto (s.pc + 4)⟩ := by
  obtain ⟨a, ha, h⟩ := bind_ok_iff.1 h
  exact ⟨a, boolWord b, eq_position_of_address_ok ha, by cases h; rfl⟩

theorem inputEffects_ok {s : State} {p : Param} {e : Effects} (h : inputEffects s p = .ok e) :
    ∃ a v rest, p = .position a ∧ s.inQueue = v :: rest ∧ e = ⟨some (a, v), true, none, .goto (s.pc + 2)⟩ := by
  obtain ⟨a, ha, h⟩ := bind_ok_iff.1 h
  cases hq : s.inQueue with
  | nil => simp [hq] at h
  | cons v rest =>
    simp only [hq] at h
    exact ⟨a, v, rest, eq_position_of_address_ok ha, rfl, by cases h; rfl⟩

theorem outputEffects_ok {s : State} {p : Param} {e : Effects} (h : outputEffects s p = .ok e) :
    ∃ v, e = ⟨none, false, some v, .goto (s.pc + 2)⟩ := by
  unfold outputEffects at h
  split at h <;> cases h
  exact ⟨_, rfl⟩

theorem instrEffects_ok {i : Instr} {s : State} {e : Effects} (h : instrEffects i s = .ok e) : Reported i s e := by
  cases i with
  | add m0 m1 m2 | mul m0 m1 m2 =>
    obtain ⟨p0, p1, p2, _, _, h2, h⟩ := withArgs3_ok h
    obtain ⟨a, v, rfl, rfl⟩ := arithEffects_ok h
    exact ⟨a, v, h2, rfl⟩
  | lessThan m0 m1 m2 | equals m0 m1 m2 =>
    obtain ⟨p0, p1, p2, _, _, h2, h⟩ := withArgs3_ok h
    obtain ⟨a, v, rfl, rfl⟩ := compareEffects_ok h
    exact ⟨a, v, h2, rfl⟩
  | input m0 m1 m2 =>
    obtain ⟨p0, h0, h⟩ := withArgs1_ok h
    obtain ⟨a, v, rest, rfl, hq, rfl⟩ := inputEffects_ok h
    exact ⟨a, v, rest, h0, hq, rfl⟩
  | output m0 m1 m2 =>
    obtain ⟨p0, _, h⟩ := withArgs1_ok h
    exact outputEffects_ok h
  | jumpIfTrue m0 m1 m2 | jumpIfFalse m0 m1 m2 =>
    obtain ⟨p0, p1, _, _, h⟩ := withArgs2_ok h
    cases h
    exact ⟨_, rfl⟩
  | terminate m0 m1 m2 =>
    cases h
    rfl

/-- An instruction that answers a next state commits what it reports, or fails. -/
theorem exec_next_reported {i : Instr} {s t : State} (h : exec i s = .next t) :
    (∃ e, Reported i s e ∧ t = commit s e) ∨ ∃ e, t = failedWith s e := by
  rcases complete_next (exec_eq_complete i s ▸ h) with ⟨e, he, ht⟩ | ⟨e, _, ht⟩
  · exact .inl ⟨e, instrEffects_ok he, ht⟩
  · exact .inr ⟨e, ht⟩

/-- What a step reports is what the instruction it fetched can report. -/
theorem stepEffects_ok {s : State} {e : Effects} (h : stepEffects s = .ok e) : ∃ i, Reported i s e := by
  obtain ⟨w, _, h⟩ := bind_ok_iff.1 h
  obtain ⟨i, _, h⟩ := bind_ok_iff.1 h
  exact ⟨i, instrEffects_ok h⟩

end Sys2Proof.Machine

open Sys2Proof Sys2Proof.Machine

/-- Settles O17: a Running step is decided by what it reports, and failing changes nothing that report reads. -/
theorem failedInstructionFailsAgain : Obligations.FailedInstructionFailsAgain := by
  intro s t hstep hfailed
  have hrun : s.runState = .running := runState_of_step_next hstep
  rcases step_next_effects hstep with ⟨e, _, rfl⟩ | ⟨e, he, rfl⟩
  · exact absurd hfailed (commit_runState_ne_failed hrun e)
  · refine ⟨rfl, ?_⟩
    rw [step_of_running rfl, stepEffects_setRunState]
    have he' : stepEffects (failedWith s e) = .error e := (stepEffects_setRunState s _ _).trans he
    rw [he', complete_error]
    rfl

end

section
/-! What a program cannot observe: the log it appends to, and the input behind what it consumes (O55, O56). Each is a
two-run simulation: a step that reports the same effects keeps the two states alike. -/

namespace Sys2Proof.Machine

/-! ### Runs -/

theorem step_of_not_running {s : State} (h : s.runState ≠ .running) : ∃ f, step s = .fault f := by
  unfold step
  cases hr : s.runState with
  | running => exact absurd hr h
  | halted => exact ⟨_, rfl⟩
  | failed => exact ⟨_, rfl⟩

/-- A run of a stopped machine performs no step (rule R138). -/
theorem runFor_of_not_running {s : State} (h : s.runState ≠ .running) (fuel : Nat) : runFor fuel s = s := by
  obtain ⟨f, hf⟩ := step_of_not_running h
  cases fuel with
  | zero => rfl
  | succ fuel => simp only [runFor, hf]

theorem runFor_succ_of_step {s t : State} (h : step s = .next t) (fuel : Nat) :
    runFor (fuel + 1) s = runFor fuel t := by
  simp only [runFor, h]

/-- A Running state always has a step (rule R123). -/
theorem exists_step_of_running {s : State} (h : s.runState = .running) : ∃ t, step s = .next t := by
  rw [step_of_running h]
  cases stepEffects s with
  | ok e => exact ⟨_, rfl⟩
  | error e => exact ⟨_, rfl⟩

/-! ### Another log -/

/-- The values an effect record appends to the log. -/
def Effects.appended (e : Effects) : List Int := e.append.toList

theorem logAfter_eq (e : Effects) (l : List Int) : e.logAfter l = l ++ e.appended := by
  unfold Effects.logAfter Effects.appended
  cases e.append with
  | none => simp
  | some v => simp

/-- An unbounded log is never full (rule R11). -/
theorem logFull_of_unbounded {s : State} (h : s.params.outputCapacity = none) : logFull s = false := by
  simp only [logFull, h]

/-- Only Output's capacity test looks at the log, so with an unbounded log the log does not matter. -/
theorem stepEffects_setLog {s : State} (h : s.params.outputCapacity = none) (log : List Int) :
    stepEffects { s with outLog := log } = stepEffects s := by
  have houtput (p : Param) : outputEffects { s with outLog := log } p = outputEffects s p := by
    simp only [outputEffects, logFull_of_unbounded h, logFull_of_unbounded (s := { s with outLog := log }) h]
  have hinstr (i : Instr) : instrEffects i { s with outLog := log } = instrEffects i s := by
    cases i with
    | output m0 m1 m2 => exact congrArg (withArgs1 s m0) (funext houtput)
    | add _ _ _ | mul _ _ _ | input _ _ _ | jumpIfTrue _ _ _ | jumpIfFalse _ _ _ | lessThan _ _ _ | equals _ _ _
    | terminate _ _ _ => rfl
  simp only [stepEffects, hinstr]
  rfl

/-- With an unbounded log, a step from another log is the same step, and appends the same values. -/
theorem step_setLog {s t : State} (h : s.params.outputCapacity = none) (hstep : step s = .next t) :
    ∃ new, ∀ log : List Int, step { s with outLog := log } = .next { t with outLog := log ++ new } := by
  have hrun : s.runState = .running := runState_of_step_next hstep
  have hlog (log : List Int) : step { s with outLog := log } = complete { s with outLog := log } (stepEffects s) := by
    rw [step_of_running (s := { s with outLog := log }) hrun, stepEffects_setLog h]
  rcases step_next_effects hstep with ⟨e, he, rfl⟩ | ⟨e, he, rfl⟩
  · refine ⟨e.appended, fun log => ?_⟩
    rw [hlog, he, complete_ok, ← logAfter_eq]
    rfl
  · refine ⟨[], fun log => ?_⟩
    rw [hlog, he, complete_error, List.append_nil]
    rfl

/-! ### More input behind -/

/-- Only Input's own stage looks at the queue, and of it at the front value alone. -/
theorem inputEffects_moreInput (s : State) (more : List Int) (p : Param) :
    inputEffects { s with inQueue := s.inQueue ++ more } p = inputEffects s p ∨
      inputEffects s p = .error .inputExhausted := by
  cases p with
  | immediate v => exact .inl rfl
  | position a =>
    cases hq : s.inQueue with
    | nil => exact .inr (by simp [inputEffects, hq])
    | cons v rest => exact .inl (by simp [inputEffects, hq])

/-- With more input behind, an instruction reports the same, unless it fails for want of input. -/
theorem instrEffects_moreInput (i : Instr) (s : State) (more : List Int) :
    instrEffects i { s with inQueue := s.inQueue ++ more } = instrEffects i s ∨
      instrEffects i s = .error .inputExhausted := by
  cases i with
  | input m0 m1 m2 =>
    have hresolve : resolve { s with inQueue := s.inQueue ++ more } 0 m0 = resolve s 0 m0 := rfl
    simp only [instrEffects, withArgs1, hresolve]
    cases resolve s 0 m0 with
    | error e => exact .inl rfl
    | ok p => exact inputEffects_moreInput s more p
  | add _ _ _ | mul _ _ _ | output _ _ _ | jumpIfTrue _ _ _ | jumpIfFalse _ _ _ | lessThan _ _ _ | equals _ _ _
  | terminate _ _ _ => exact .inl rfl

/-- With more input behind, a step reports the same, unless it fails for want of input. -/
theorem stepEffects_moreInput (s : State) (more : List Int) :
    stepEffects { s with inQueue := s.inQueue ++ more } = stepEffects s ∨
      stepEffects s = .error .inputExhausted := by
  have hfetch : fetch { s with inQueue := s.inQueue ++ more } = fetch s := rfl
  simp only [stepEffects, hfetch]
  cases fetch s with
  | error e => exact .inl rfl
  | ok w =>
    simp only [ok_bind]
    cases decode w with
    | error e => exact .inl rfl
    | ok i => exact instrEffects_moreInput i s more

/-- A pop takes a value of the queue's own, never one put behind it. -/
theorem queueAfter_append {i : Instr} {s : State} {e : Effects} (h : Reported i s e) (more : List Int) :
    e.queueAfter (s.inQueue ++ more) = e.queueAfter s.inQueue ++ more := by
  cases i with
  | input m0 m1 m2 =>
    obtain ⟨a, v, rest, _, hq, rfl⟩ := h
    simp [hq]
  | add _ _ _ | mul _ _ _ | lessThan _ _ _ | equals _ _ _ =>
    obtain ⟨a, v, _, rfl⟩ := h
    rfl
  | output _ _ _ | jumpIfTrue _ _ _ | jumpIfFalse _ _ _ =>
    obtain ⟨v, rfl⟩ := h
    rfl
  | terminate _ _ _ =>
    cases h
    rfl

/-- A step that does not fail for want of input is the same step with more input behind, and leaves that input there. -/
theorem step_moreInput {s t : State} (more : List Int) (hne : stepEffects s ≠ .error .inputExhausted)
    (hstep : step s = .next t) :
    step { s with inQueue := s.inQueue ++ more } = .next { t with inQueue := t.inQueue ++ more } := by
  have hrun : s.runState = .running := runState_of_step_next hstep
  rw [step_of_running (s := { s with inQueue := s.inQueue ++ more }) hrun,
    (stepEffects_moreInput s more).resolve_right hne]
  rcases step_next_effects hstep with ⟨e, he, rfl⟩ | ⟨e, he, rfl⟩
  · obtain ⟨i, hi⟩ := stepEffects_ok he
    rw [he, complete_ok, commit_inQueue, ← queueAfter_append hi]
    rfl
  · rw [he, complete_error]
    rfl

end Sys2Proof.Machine

open Sys2Proof Sys2Proof.Machine

/-- Settles O55, by induction on the fuel: each step appends values that do not depend on the log. -/
theorem outputLogCannotBeObserved : Obligations.OutputLogCannotBeObserved := by
  intro fuel
  induction fuel with
  | zero => exact fun s _ => ⟨[], fun log => by rw [List.append_nil]; rfl⟩
  | succ fuel ih =>
    intro s hunbounded
    by_cases hrun : s.runState = .running
    · obtain ⟨t, hstep⟩ := exists_step_of_running hrun
      obtain ⟨new, hnew⟩ := step_setLog hunbounded hstep
      obtain ⟨later, hlater⟩ := ih t (step_params hstep ▸ hunbounded)
      refine ⟨new ++ later, fun log => ?_⟩
      rw [runFor_succ_of_step (hnew log), hlater, runFor_succ_of_step hstep, List.append_assoc]
    · refine ⟨[], fun log => ?_⟩
      rw [runFor_of_not_running (s := { s with outLog := log }) hrun, runFor_of_not_running hrun, List.append_nil]

/-- Settles O56, by induction on the fuel. A step that wants for input ends the run in that failure, so no step of a run
that does not end so does. -/
theorem unconsumedInputCannotBeObserved : Obligations.UnconsumedInputCannotBeObserved := by
  intro fuel
  induction fuel with
  | zero => exact fun _ _ _ => rfl
  | succ fuel ih =>
    intro s more hend
    by_cases hrun : s.runState = .running
    · obtain ⟨t, hstep⟩ := exists_step_of_running hrun
      rw [runFor_succ_of_step hstep] at hend ⊢
      have hne : stepEffects s ≠ .error .inputExhausted := by
        intro hwant
        have ht : t = failedWith s .inputExhausted := by
          rw [step_of_running hrun, hwant] at hstep
          cases hstep
          rfl
        rw [runFor_of_not_running (by simp [ht, failedWith])] at hend
        exact hend (by rw [ht]; rfl)
      rw [runFor_succ_of_step (step_moreInput more hne hstep)]
      exact ih t more hend
    · rw [runFor_of_not_running (s := { s with inQueue := s.inQueue ++ more }) hrun, runFor_of_not_running hrun]

end

section
/-! What every run keeps, and what only Output and Input change (O21, O22, O24, O50). -/

namespace Sys2Proof.Machine

/-! ### One step -/

theorem step_mem_length {s t : State} (h : step s = .next t) : t.mem.length = s.mem.length := by
  rcases step_next_effects h with ⟨e, _, rfl⟩ | ⟨e, _, rfl⟩
  · exact memAfter_length e s.mem
  · rfl

theorem step_mem_wf {s t : State} (hwf : s.mem.wf) (h : step s = .next t) : t.mem.wf := by
  rcases step_next_effects h with ⟨e, _, rfl⟩ | ⟨e, _, rfl⟩
  · exact memAfter_wf e hwf
  · exact hwf

/-- A step only appends to the log (rule R29). -/
theorem step_outLog {s t : State} (h : step s = .next t) : s.outLog <+: t.outLog := by
  rcases step_next_effects h with ⟨e, _, rfl⟩ | ⟨e, _, rfl⟩
  · exact ⟨e.appended, (logAfter_eq e s.outLog).symm⟩
  · exact List.prefix_rfl

/-- A step completes the instruction it fetched, or fails. -/
theorem step_next_completed {s t : State} (h : step s = .next t) :
    (∃ i, Fetches s i ∧ Completed i s t) ∨ ∃ e, t = failedWith s e := by
  obtain ⟨_, ⟨_, ht⟩ | ⟨_, e, _, ht⟩ | ⟨i, hf, hx⟩⟩ := step_next_cases h
  · exact .inr ⟨_, ht⟩
  · exact .inr ⟨e, ht⟩
  · rcases exec_next_cases hx with hc | ⟨e, _, ht⟩
    · exact .inl ⟨i, hf, hc⟩
    · exact .inr ⟨e, ht⟩

/-! ### Runs -/

/-- What every step keeps, every run keeps. -/
theorem runFor_keeps {P : State → Prop} (hstep : ∀ {s t}, P s → step s = .next t → P t) (fuel : Nat) {s : State}
    (h : P s) : P (runFor fuel s) := by
  induction fuel generalizing s with
  | zero => exact h
  | succ fuel ih =>
    by_cases hrun : s.runState = .running
    · obtain ⟨t, ht⟩ := exists_step_of_running hrun
      rw [runFor_succ_of_step ht]
      exact ih (hstep h ht)
    · rwa [runFor_of_not_running hrun]

/-- A run is one sequence of steps, however its fuel is divided (rule R131). -/
theorem runFor_add (fuel more : Nat) (s : State) : runFor (fuel + more) s = runFor more (runFor fuel s) := by
  induction fuel generalizing s with
  | zero => rw [Nat.zero_add]; rfl
  | succ fuel ih =>
    by_cases hrun : s.runState = .running
    · obtain ⟨t, ht⟩ := exists_step_of_running hrun
      rw [Nat.succ_add, runFor_succ_of_step ht, runFor_succ_of_step ht, ih]
    · simp only [runFor_of_not_running hrun]

theorem runFor_params (fuel : Nat) (s : State) : (runFor fuel s).params = s.params :=
  runFor_keeps (P := fun t => t.params = s.params) (fun h hstep => (step_params hstep).trans h) fuel rfl

theorem runFor_mem_length (fuel : Nat) (s : State) : (runFor fuel s).mem.length = s.mem.length :=
  runFor_keeps (P := fun t => t.mem.length = s.mem.length) (fun h hstep => (step_mem_length hstep).trans h) fuel rfl

theorem runFor_outLog (fuel : Nat) (s : State) : s.outLog <+: (runFor fuel s).outLog :=
  runFor_keeps (P := fun t => s.outLog <+: t.outLog) (fun h hstep => h.trans (step_outLog hstep)) fuel List.prefix_rfl

end Sys2Proof.Machine

open Sys2Proof Sys2Proof.Machine

/-- Settles O21: of the completed instructions, only Output's state has another log. -/
theorem onlyOutputAppendsToTheLog : Obligations.OnlyOutputAppendsToTheLog := by
  intro s t hstep hlog
  rcases step_next_completed hstep with ⟨i, hf, hc⟩ | ⟨e, rfl⟩
  · cases i with
    | output m0 m1 m2 =>
      obtain ⟨_, rfl⟩ := hc
      exact ⟨m0, m1, m2, hf, rfl⟩
    | add _ _ _ | mul _ _ _ =>
      obtain ⟨_, _, v, _, rfl⟩ := hc
      exact absurd rfl hlog
    | lessThan _ _ _ | equals _ _ _ =>
      obtain ⟨_, _, rfl⟩ := hc
      exact absurd rfl hlog
    | input _ _ _ =>
      obtain ⟨_, _, v, rest, _, rfl⟩ := hc
      exact absurd rfl hlog
    | jumpIfTrue _ _ _ | jumpIfFalse _ _ _ | terminate _ _ _ =>
      cases hc
      exact absurd rfl hlog
  · exact absurd rfl hlog

/-- Settles O22: of the completed instructions, only Input's state has another queue. -/
theorem onlyInputConsumesTheQueue : Obligations.OnlyInputConsumesTheQueue := by
  intro s t hstep hqueue
  rcases step_next_completed hstep with ⟨i, hf, hc⟩ | ⟨e, rfl⟩
  · cases i with
    | input m0 m1 m2 =>
      obtain ⟨rfl, _, v, rest, hq, rfl⟩ := hc
      exact ⟨m1, m2, v, hf, hq, rfl⟩
    | add _ _ _ | mul _ _ _ =>
      obtain ⟨_, _, v, _, rfl⟩ := hc
      exact absurd rfl hqueue
    | lessThan _ _ _ | equals _ _ _ =>
      obtain ⟨_, _, rfl⟩ := hc
      exact absurd rfl hqueue
    | output _ _ _ =>
      obtain ⟨_, rfl⟩ := hc
      exact absurd rfl hqueue
    | jumpIfTrue _ _ _ | jumpIfFalse _ _ _ | terminate _ _ _ =>
      cases hc
      exact absurd rfl hqueue
  · exact absurd rfl hqueue

/-- Settles O24: each of the three is kept by a step, so by a run. -/
theorem lengthAndParametersNeverChange : Obligations.LengthAndParametersNeverChange := fun fuel s =>
  ⟨runFor_params fuel s, runFor_mem_length fuel s, runFor_keeps (P := fun t => t.mem.wf) step_mem_wf fuel⟩

/-- Settles O50: the run with more fuel goes on from the run with less, and no step takes from the log. -/
theorem outputLogOnlyGrows : Obligations.OutputLogOnlyGrows := by
  intro fuel more s
  rw [runFor_add]
  obtain ⟨new, hnew⟩ := runFor_outLog more (runFor fuel s)
  exact ⟨new, hnew.symm⟩

end

section
/-! The frames of the instructions (O40, O41, O42): what an instruction reports bounds what it can change. -/

namespace Sys2Proof.Machine

/-- An instruction whose target is argument 2 stores one word where that argument resolves to, or fails. -/
theorem exec_store_cases {i : Instr} {s t : State} (hi : i.targetArg = some 2) (h : exec i s = .next t) :
    (∃ a v, resolve s 2 (i.mode 2) = .ok (.position a) ∧ t = { s with mem := s.mem.write a v, pc := s.pc + 4 }) ∨
    ∃ e, t = failedWith s e := by
  refine (exec_next_reported h).imp_left fun ⟨e, he, ht⟩ => ?_
  cases i with
  | add _ _ _ | mul _ _ _ | lessThan _ _ _ | equals _ _ _ =>
    obtain ⟨a, v, hr, rfl⟩ := he
    exact ⟨a, v, hr, ht⟩
  | input _ _ _ | output _ _ _ | jumpIfTrue _ _ _ | jumpIfFalse _ _ _ | terminate _ _ _ => cases hi

/-- Input moves the front of the queue to where its argument resolves to, or fails. -/
theorem exec_input_cases {m0 m1 m2 : Mode} {s t : State} (h : exec (.input m0 m1 m2) s = .next t) :
    (∃ a v, resolve s 0 m0 = .ok (.position a) ∧
      t = { s with mem := s.mem.write a v, inQueue := s.inQueue.tail, pc := s.pc + 2 }) ∨
    ∃ e, t = failedWith s e := by
  refine (exec_next_reported h).imp_left fun ⟨e, he, ht⟩ => ?_
  obtain ⟨a, v, rest, hr, _, rfl⟩ := he
  exact ⟨a, v, hr, ht⟩

/-- Output appends a value and advances, or fails. -/
theorem exec_output_cases {m0 m1 m2 : Mode} {s t : State} (h : exec (.output m0 m1 m2) s = .next t) :
    (∃ v, t = { s with outLog := s.outLog ++ [v], pc := s.pc + 2 }) ∨ ∃ e, t = failedWith s e := by
  refine (exec_next_reported h).imp_left fun ⟨e, he, ht⟩ => ?_
  obtain ⟨v, rfl⟩ := he
  exact ⟨v, ht⟩

/-- A jump moves the pointer, or fails. -/
theorem exec_jump_cases {m0 m1 m2 : Mode} {s t : State}
    (h : exec (.jumpIfTrue m0 m1 m2) s = .next t ∨ exec (.jumpIfFalse m0 m1 m2) s = .next t) :
    (∃ pc, t = { s with pc := pc }) ∨ ∃ e, t = failedWith s e := by
  rcases h with h | h
  all_goals
    refine (exec_next_reported h).imp_left fun ⟨e, he, ht⟩ => ?_
    obtain ⟨pc, rfl⟩ := he
    exact ⟨pc, ht⟩

/-- A write through the address an argument resolves to changes no other word. -/
theorem cell_write_of_resolve {s : State} {k : Fin 3} {m : Mode} {a a' b : Nat} {v : Int}
    (h : resolve s k m = .ok (.position a)) (h' : resolve s k m = .ok (.position a')) (hb : b ≠ a') :
    (s.mem.write a v).cell b = s.mem.cell b := by
  have ha : a = a' := by simpa [h] using h'
  rw [cell_write, if_neg (by simp [ha, hb])]

end Sys2Proof.Machine

open Sys2Proof Sys2Proof.Machine

/-- Settles O40: each of the four stores one word through argument 2, or fails. -/
theorem storingInstructionsFrame : Obligations.StoringInstructionsFrame := by
  intro s t m0 m1 m2 h
  have hcases : (∃ a v, resolve s 2 m2 = .ok (.position a) ∧
      t = { s with mem := s.mem.write a v, pc := s.pc + 4 }) ∨ ∃ e, t = failedWith s e := by
    rcases h with h | h | h | h <;> exact exec_store_cases rfl h
  rcases hcases with ⟨a, v, hr, rfl⟩ | ⟨e, rfl⟩
  · exact ⟨rfl, rfl, rfl, write_length s.mem a v, fun _ hr' _ hb => cell_write_of_resolve hr hr' hb,
      fun hnone => absurd hr (hnone a), .inl ⟨rfl, rfl⟩⟩
  · exact ⟨rfl, rfl, rfl, rfl, fun _ _ _ _ => rfl, fun _ => rfl, .inr ⟨rfl, rfl, rfl, rfl⟩⟩

/-- Settles O41: Input stores one word through argument 0 and pops the queue, or fails. -/
theorem inputFrame : Obligations.InputFrame := by
  intro s t m0 m1 m2 h
  rcases exec_input_cases h with ⟨a, v, hr, rfl⟩ | ⟨e, rfl⟩
  · exact ⟨rfl, rfl, write_length s.mem a v, fun _ hr' _ hb => cell_write_of_resolve hr hr' hb,
      fun hnone => absurd hr (hnone a), .inl ⟨rfl, rfl, rfl⟩⟩
  · exact ⟨rfl, rfl, rfl, fun _ _ _ _ => rfl, fun _ => rfl, .inr ⟨rfl, rfl, rfl, rfl, rfl⟩⟩

/-- Settles O42: Output appends to the log and advances, a jump moves the pointer, or they fail. -/
theorem outputAndJumpsFrame : Obligations.OutputAndJumpsFrame := by
  intro s t m0 m1 m2
  refine ⟨fun h => ?_, fun h => ?_⟩
  · rcases h with h | h
    · rcases exec_output_cases h with ⟨v, rfl⟩ | ⟨e, rfl⟩
      · exact ⟨rfl, rfl, fun _ => rfl, rfl, .inl ⟨rfl, rfl⟩⟩
      · exact ⟨rfl, rfl, fun _ => rfl, rfl, .inr ⟨rfl, rfl, rfl, rfl⟩⟩
    · rcases exec_jump_cases h with ⟨pc, rfl⟩ | ⟨e, rfl⟩
      · exact ⟨rfl, rfl, fun _ => rfl, rfl, .inl ⟨rfl, rfl⟩⟩
      · exact ⟨rfl, rfl, fun _ => rfl, rfl, .inr ⟨rfl, rfl, rfl, rfl⟩⟩
  · rcases exec_jump_cases h with ⟨pc, rfl⟩ | ⟨e, rfl⟩ <;> rfl

end

section
/-! Memory in canonical form, and the memory built from an image (O10, O11). -/

namespace Sys2Proof.Machine

/-- In canonical form the listed pairs are the words that are not what an unlisted index holds. -/
theorem mem_cells_iff {m : Memory} (h : m.wf) (a : Nat) (v : Int) :
    (a, v) ∈ m.cells ↔ m.cell a = v ∧ v ≠ Memory.unlisted := by
  obtain ⟨hrising, hlisted⟩ := h
  constructor
  · exact fun hc => ⟨cellIn_of_mem hrising hc, (hlisted _ hc).2⟩
  · rintro ⟨rfl, hv⟩
    by_contra hc
    refine hv (cellIn_eq_unlisted fun c hcm hca => hc ?_)
    have hread : m.cell a = c.2 := by rw [← hca]; exact cellIn_of_mem hrising hcm
    rwa [hread, ← hca]

/-- Canonical memories of one length that read alike are equal. -/
theorem Memory.ext_cell {m m' : Memory} (h : m.wf) (h' : m'.wf) (hlen : m'.length = m.length)
    (hcell : ∀ a, m'.cell a = m.cell a) : m' = m := by
  have hanti : Std.Antisymm (fun c d : Nat × Int => c.1 < d.1) := ⟨fun _ _ hlt hgt => absurd hlt hgt.not_gt⟩
  have hirrefl : Std.Irrefl (fun c d : Nat × Int => c.1 < d.1) := ⟨fun c => lt_irrefl c.1⟩
  have hcells : m'.cells = m.cells :=
    h'.1.eq_of_mem_iff h.1 fun ⟨a, v⟩ => by rw [mem_cells_iff h', mem_cells_iff h, hcell]
  cases m
  cases m'
  cases hlen
  cases hcells
  rfl

/-- An index below where a sequence is placed holds the unlisted word. -/
theorem cellIn_cellsOfWords_of_lt {a b : Nat} (h : b < a) (image : List Int) :
    cellIn b (cellsOfWords a image) = Memory.unlisted :=
  cellIn_eq_unlisted fun c hc hcb => by
    have := (mem_cellsOfWords hc).1
    omega

/-- A sequence placed from index `a` on is read back from there. -/
theorem cellIn_cellsOfWords (a k : Nat) (image : List Int) :
    cellIn (a + k) (cellsOfWords a image) = image.getD k Memory.unlisted := by
  induction image generalizing a k with
  | nil => rfl
  | cons v rest ih =>
    have hrest (j : Nat) : cellIn (a + (j + 1)) (cellsOfWords (a + 1) rest) = rest.getD j Memory.unlisted := by
      rw [← ih, Nat.add_right_comm, Nat.add_assoc]
    unfold cellsOfWords
    cases k with
    | zero =>
      split
      · next hv => rw [Nat.add_zero, cellIn_cellsOfWords_of_lt (Nat.lt_succ_self a), hv]; rfl
      · rw [Nat.add_zero, cellIn_cons, if_pos rfl]; rfl
    | succ j =>
      split
      · exact hrest j
      · rw [cellIn_cons, if_neg (by omega)]; exact hrest j

/-- The memory built from an image reads as the image (rule R22). -/
theorem cell_ofWords (image : List Int) (k : Nat) :
    (Memory.ofWords image).cell k = image.getD k Memory.unlisted := by
  have h := cellIn_cellsOfWords 0 k image
  rwa [Nat.zero_add] at h

end Sys2Proof.Machine

open Sys2Proof Sys2Proof.Machine

/-- Settles O10: both sides of each equation are canonical, of one length, and read alike. -/
theorem equalReadsMeanEqualMemory : Obligations.EqualReadsMeanEqualMemory := by
  intro m hwf
  refine ⟨fun m' hwf' => Memory.ext_cell hwf hwf', fun a => ?_, fun a b v w hab => ?_⟩
  · refine Memory.ext_cell hwf (write_wf a _ hwf) (write_length m a _) fun b => ?_
    rw [cell_write]
    split
    · next hb => rw [hb.2]
    · rfl
  · refine Memory.ext_cell (write_wf a v (write_wf b w hwf)) (write_wf b w (write_wf a v hwf)) (by simp) fun c => ?_
    simp only [cell_write, write_length]
    split_ifs with hb ha
    · exact absurd (ha.2.symm.trans hb.2) hab
    · rfl
    · rfl
    · rfl

/-- Settles O11, by reading the placed words back. -/
theorem constructedMemoryHoldsTheImage : Obligations.ConstructedMemoryHoldsTheImage := by
  intro image
  have hcell (k : Nat) (hk : k < image.length) : (Memory.ofWords image).cell k = image[k] := by
    rw [cell_ofWords, List.getD_eq_getElem _ _ hk]
  refine ⟨rfl, hcell, List.ext_getElem (by simp [Memory.toWords, Memory.ofWords]) fun k _ hk => ?_⟩
  simp only [Memory.toWords, List.getElem_map, List.getElem_range]
  exact hcell k hk

end

section
/-! The STATUS register, and construction (O52, O54). -/

namespace Sys2Proof.Machine

/-! ### The fields of STATUS (rule R33) -/

theorem statusReg_state (s : State) : (statusReg s).extractLsb' 0 2 = s.runState.code :=
  BitVec.extractLsb'_append_eq_right

theorem statusReg_errCode (s : State) : (statusReg s).extractLsb' 2 6 = errCode s :=
  (BitVec.extractLsb'_append_eq_of_le (by decide)).trans BitVec.extractLsb'_append_eq_right

theorem statusReg_errArg (s : State) : (statusReg s).extractLsb' 8 2 = errArg s :=
  (BitVec.extractLsb'_append_eq_of_le (by decide)).trans
    ((BitVec.extractLsb'_append_eq_of_le (by decide)).trans BitVec.extractLsb'_append_eq_right)

theorem statusReg_reserved (s : State) : (statusReg s).extractLsb' 10 6 = 0 :=
  (BitVec.extractLsb'_append_eq_of_le (by decide)).trans
    ((BitVec.extractLsb'_append_eq_of_le (by decide)).trans BitVec.extractLsb'_append_eq_left)

/-- Every error has a code from 1 to 9 (rule R190). -/
theorem Err.code_bounds (e : Err) : 1 ≤ e.code.toNat ∧ e.code.toNat ≤ 9 := by
  cases e <;> exact ⟨by simp [Err.code], by simp [Err.code]⟩

theorem errCode_le_nine (s : State) : (errCode s).toNat ≤ 9 := by
  unfold errCode
  split
  · exact (Err.code_bounds _).2
  · decide

/-- ERR_CODE 0 is no error. -/
theorem errCode_eq_zero_iff (s : State) : errCode s = 0 ↔ s.err = none := by
  unfold errCode
  cases s.err with
  | none => simp
  | some e =>
    have hpos := e.code_bounds.1
    have hne : e.code ≠ 0 := fun h => by simp [h] at hpos
    exact iff_of_false hne nofun

theorem runState_code_eq_two_iff (r : RunState) : r.code = 2 ↔ r = .failed := by
  cases r <;> decide

/-! ### Construction -/

/-- What `create` builds, when it builds one (rules R9, R130 and R221). -/
theorem create_ok {p : Params} {image input : List Int} {s : State} (h : create p image input = .ok s) :
    p.wf ∧ ImageWf p.wordBits image ∧ WordsFit p.wordBits input ∧
      s = ⟨p, Memory.ofWords image, 0, input, [], .running, none⟩ := by
  unfold create at h
  split_ifs at h with hp hlen himage hinput
  exact ⟨hp, ⟨hlen, himage⟩, hinput, by cases h; rfl⟩

/-- A constructed machine meets the invariant. -/
theorem create_inv {p : Params} {image input : List Int} {s : State} (h : create p image input = .ok s) : s.Inv := by
  obtain ⟨hp, ⟨hlen, himage⟩, hinput, rfl⟩ := create_ok h
  have hzero : InWord p.wordBits (0 : Nat) := inWord_of_le_nine hp (by decide)
  refine
    { params_wf := hp
      mem_wf := ofWords_wf image
      mem_len := hlen
      mem_words := fun a => ?_
      pc_word := hzero
      queue_words := hinput
      log_words := fun _ hv => absurd hv List.not_mem_nil
      log_fits := by simp
      err_iff := by simp
      err_fits := by simp }
  show InWord p.wordBits ((Memory.ofWords image).cell a)
  rw [cell_ofWords]
  by_cases ha : a < image.length
  · rw [List.getD_eq_getElem _ _ ha]
    exact himage _ (List.getElem_mem ha)
  · rw [List.getD_eq_default _ _ (by omega)]
    exact hzero

end Sys2Proof.Machine

open Sys2Proof Sys2Proof.Machine

/-- Settles O52: each field is read out of the concatenation, and the error codes run from 1 to 9. -/
theorem statusRegisterFields : Obligations.StatusRegisterFields := by
  intro s
  rw [statusReg_state, statusReg_errCode, statusReg_errArg]
  refine ⟨?_, ?_, ?_, statusReg_reserved s, errCode_le_nine s, errCode_eq_zero_iff s, fun h => ?_, fun e h => ?_⟩
  · cases s.runState <;> rfl
  · unfold errCode; cases s.err <;> rfl
  · unfold errArg; cases s.err <;> rfl
  · simp only [errValueReg, h]
  · simp only [errValueReg, h]

/-- Settles O54: the run of a constructed machine keeps the invariant, by which there is an error exactly in Failed. -/
theorem statusReportsFailureExactlyWhenFailed : Obligations.StatusReportsFailureExactlyWhenFailed := by
  intro p image input s fuel hcreate
  have hinv : (runFor fuel s).Inv := runFor_keeps (P := State.Inv) State.Inv.step fuel (create_inv hcreate)
  rw [statusReg_errCode, statusReg_state, runState_code_eq_two_iff, ← hinv.err_iff, Ne, errCode_eq_zero_iff,
    Option.isSome_iff_ne_none]

end

section
/-! What a write and a step do to memory (O9, O23), and a written word as the next instruction (O25). -/

namespace Sys2Proof.Machine

/-! ### One write -/

/-- A write out of range changes nothing (rule R56). -/
theorem write_of_length_le {m : Memory} {a : Nat} (h : m.length ≤ a) (v : Int) : m.write a v = m :=
  if_neg (Nat.not_lt.2 h)

/-- A word that differs after a write is the one written, and it lies in memory (rule R54). -/
theorem eq_of_cell_write_ne {m : Memory} {a b : Nat} {v : Int} (h : (m.write a v).cell b ≠ m.cell b) :
    a < m.length ∧ b = a := by
  rw [cell_write] at h
  by_contra hne
  exact h (if_neg hne)

/-! ### The memory an instruction leaves -/

/-- An instruction that completes leaves memory, or writes one word through its Position target and keeps the run state
(rule R60). -/
theorem Completed.mem_cases {i : Instr} {s t : State} (h : Completed i s t) :
    t.mem = s.mem ∨ ∃ k v, i.targetArg = some k ∧ i.mode k = .position ∧ t.mem = s.mem.write (targetIndex s k) v ∧
      t.runState = s.runState := by
  cases i with
  | add _ _ _ | mul _ _ _ =>
    obtain ⟨hm, _, v, _, rfl⟩ := h
    exact .inr ⟨2, v, rfl, hm, rfl, rfl⟩
  | lessThan _ _ _ | equals _ _ _ =>
    obtain ⟨hm, _, rfl⟩ := h
    exact .inr ⟨2, _, rfl, hm, rfl, rfl⟩
  | input _ _ _ =>
    obtain ⟨hm, _, v, _, _, rfl⟩ := h
    exact .inr ⟨0, v, rfl, hm, rfl, rfl⟩
  | output _ _ _ =>
    obtain ⟨_, rfl⟩ := h
    exact .inl rfl
  | jumpIfTrue _ _ _ | jumpIfFalse _ _ _ | terminate _ _ _ =>
    cases h
    exact .inl rfl

/-! ### The instruction of the next step -/

/-- A Running step runs the instruction it fetches (rule R122). -/
theorem step_of_fetches {s : State} {i : Instr} (h : Fetches s i) : step s = exec i s := by
  obtain ⟨hrun, hpc, hdecode⟩ := h
  simp only [step, hrun, fetch, if_pos hpc, hdecode]

/-- With the pointer at a word just written, that word is what is fetched (rule R63). -/
theorem fetches_written {t : State} {m : Memory} {a : Nat} {v : Int} {j : Instr} (hrun : t.runState = .running)
    (hmem : t.mem = m.write a v) (hpc : t.pc = a) (ha : a < m.length) (hdecode : decode v = .ok j) : Fetches t j := by
  refine ⟨hrun, ?_, ?_⟩
  · rw [hmem, hpc, Memory.InRange, write_length]
    omega
  · rwa [hmem, hpc, Int.toNat_natCast, cell_write, if_pos ⟨ha, rfl⟩]

/-- The index a ready Position argument names lies in memory (rule R95). -/
theorem targetIndex_lt {s : State} {k : Fin 3} (h : ArgReady s k .position) : targetIndex s k < s.mem.length := by
  obtain ⟨_, _, hpos⟩ := h
  obtain ⟨h0, hlt⟩ := hpos rfl
  unfold targetIndex
  omega

/-- Add with ready operands writes the narrowed sum through its Position target (rules R140 and R142). -/
theorem exec_add_of_narrow {s : State} {m0 m1 : Mode} {v : Int} (h0 : ArgReady s 0 m0) (h1 : ArgReady s 1 m1)
    (h2 : ArgReady s 2 .position) (hn : narrow s.params .add (operandValue s 0 m0 + operandValue s 1 m1) = .ok v) :
    exec (.add m0 m1 .position) s = .next { s with mem := s.mem.write (targetIndex s 2) v, pc := s.pc + 4 } := by
  have heffects : instrEffects (.add m0 m1 .position) s =
      .ok ⟨some (targetIndex s 2, v), false, none, .goto (s.pc + 4)⟩ := by
    simp [instrEffects, withArgs3_of_ready _ h0 h1 h2, arithEffects, hn]
  rw [exec_eq_complete, heffects]
  rfl

/-- Input with a ready Position target moves the front of the queue there (rule R150). -/
theorem exec_input_of_cons {s : State} {v : Int} {rest : List Int} (m1 m2 : Mode) (h0 : ArgReady s 0 .position)
    (hq : s.inQueue = v :: rest) :
    exec (.input .position m1 m2) s =
      .next { s with mem := s.mem.write (targetIndex s 0) v, inQueue := rest, pc := s.pc + 2 } := by
  have heffects : instrEffects (.input .position m1 m2) s =
      .ok ⟨some (targetIndex s 0, v), true, none, .goto (s.pc + 2)⟩ := by
    simp [instrEffects, withArgs1_of_ready _ h0, inputEffects, hq]
  have hrest : rest = s.inQueue.tail := by rw [hq, List.tail_cons]
  rw [exec_eq_complete, heffects, hrest]
  rfl

end Sys2Proof.Machine

open Sys2Proof Sys2Proof.Machine

/-- Settles O9, by the read-after-write rule of memory. -/
theorem memoryWordIsTheLastWritten : Obligations.MemoryWordIsTheLastWritten := by
  intro m a b v
  refine ⟨write_length m a v, fun ha => ?_, fun ha => write_of_length_le ha v⟩
  simp only [cell_write, ha, true_and]

/-- Settles O23: a failure keeps memory, and a completed instruction writes at most its target word. -/
theorem onlyTheTargetWordChanges : Obligations.OnlyTheTargetWordChanges := by
  intro s t a hstep hcell
  rcases step_next_completed hstep with ⟨i, hf, hc⟩ | ⟨e, rfl⟩
  · rcases hc.mem_cases with hmem | ⟨k, v, htarget, hmode, hmem, hrun⟩
    · exact absurd (by rw [hmem]) hcell
    · rw [hmem] at hcell
      obtain ⟨hlt, rfl⟩ := eq_of_cell_write_ne hcell
      exact ⟨i, k, hf, htarget, hmode, rfl, hlt, hrun.trans hf.1⟩
  · exact absurd rfl hcell

/-- Settles O25: each of the two stores the word where it leaves the pointer, and the next step fetches it there. -/
theorem writtenInstructionWordRunsNext : Obligations.WrittenInstructionWordRunsNext := by
  constructor
  · intro s m0 m1 j hf h0 h1 h2 hnext hfits hdecode
    refine ⟨_, (step_of_fetches hf).trans (exec_add_of_narrow h0 h1 h2 (narrow_of_fits .add hfits)), rfl, ?_⟩
    exact step_of_fetches (fetches_written hf.1 rfl hnext.symm (targetIndex_lt h2) hdecode)
  · intro s m1 m2 j v rest hf h0 hnext hq hdecode
    refine ⟨_, (step_of_fetches hf).trans (exec_input_of_cons m1 m2 h0 hq), rfl, ?_⟩
    exact step_of_fetches (fetches_written hf.1 rfl hnext.symm (targetIndex_lt h0) hdecode)

end

section
/-! Chaining (O51): it is `create` from the producer's log, once the producer has halted. -/

namespace Sys2Proof.Machine

/-- Chaining answers exactly the machine that `create` builds, and needs a Halted producer (rules R65 and R135). -/
theorem chain_ok_iff {producer s : State} {p : Params} {image more : List Int} :
    chain producer p image more = .ok s ↔
      producer.runState = .halted ∧ create p image (producer.outLog ++ more) = .ok s := by
  unfold chain
  split
  · next hhalted =>
    cases create p image (producer.outLog ++ more) with
    | ok s' => simp [hhalted]
    | error r => simp
  · next hne => simp [hne]

theorem chain_of_not_halted {producer : State} (h : producer.runState ≠ .halted) (p : Params) (image more : List Int) :
    chain producer p image more = .error .producerNotHalted :=
  if_neg h

/-- The memory built from an image reads out as the image (rules R22 and R134). -/
theorem toWords_ofWords (image : List Int) : (Memory.ofWords image).toWords = image := by
  obtain ⟨_, _, hwords⟩ := constructedMemoryHoldsTheImage image
  exact hwords

end Sys2Proof.Machine

open Sys2Proof Sys2Proof.Machine

/-- Settles O51: a chained machine is the one `create` builds, whose queue and memory are what it was given. -/
theorem chainHandsOverTheFullLog : Obligations.ChainHandsOverTheFullLog := by
  intro producer s p image more
  refine ⟨fun h => chain_of_not_halted h p image more, fun h => ?_, fun hhalted hcreate => ?_⟩
  · obtain ⟨hhalted, hcreate⟩ := chain_ok_iff.1 h
    refine ⟨hhalted, hcreate, ?_⟩
    obtain ⟨_, _, _, rfl⟩ := create_ok hcreate
    exact ⟨rfl, toWords_ofWords image⟩
  · exact chain_ok_iff.2 ⟨hhalted, hcreate⟩

end

section
/-! The Decoder (O1, O2, O4, O5): field extraction inverts `OpCode.word`, the operation check inverts `Instr.fields`,
so the Decoder inverts the encoder. -/

namespace Sys2Proof

open Machine (Err bind_ok_iff ok_bind error_bind pure_ok)

/-! ### The mode digits -/

theorem Mode.digit_bounds (m : Mode) : 0 ≤ m.digit ∧ m.digit ≤ 1 := by
  cases m <;> decide

theorem digit_cast (w : Int) (k : Nat) : (digit w k : Int) = w / 10 ^ k % 10 := by
  unfold digit
  omega

theorem modeOfDigit_eq_some_iff {d : Nat} {m : Mode} : modeOfDigit d = some m ↔ (d : Int) = m.digit := by
  match d with
  | 0 | 1 => cases m <;> simp [modeOfDigit, Mode.digit]
  | d + 2 =>
    have hle := m.digit_bounds.2
    simp only [modeOfDigit, reduceCtorEq, false_iff]
    omega

/-- A mode digit is accepted as the mode it is the digit of (rules R71 and R77). -/
theorem decodeMode_ok_iff {w : Int} {k : Fin 3} {m : Mode} :
    decodeMode w k = .ok m ↔ w / 10 ^ (2 + k.val) % 10 = m.digit := by
  rw [← digit_cast, ← modeOfDigit_eq_some_iff, decodeMode]
  cases modeOfDigit (digit w (2 + k.val)) <;> simp

/-! ### Field extraction -/

/-- The word whose decimal digits are the fields of `c` (rule R71). -/
def OpCode.word (c : OpCode) : Int :=
  c.operation + 100 * c.arg0Mode.digit + 1000 * c.arg1Mode.digit + 10000 * c.arg2Mode.digit

theorem extractFields_of_out_of_range {w : Int} (h : w < 0 ∨ 100000 ≤ w) :
    extractFields w = .error (.invalidOpCode w) :=
  if_pos h

/-- In range, the three mode digits are read in order, then the operation field (rules R75 to R77). -/
theorem extractFields_of_in_range {w : Int} (h0 : 0 ≤ w) (h1 : w < 100000) :
    extractFields w = (do
      let m0 ← decodeMode w 0
      let m1 ← decodeMode w 1
      let m2 ← decodeMode w 2
      return { operation := (w % 100).toNat, arg0Mode := m0, arg1Mode := m1, arg2Mode := m2 }) :=
  if_neg (by omega)

theorem extractFields_ok_iff_modes {w : Int} {c : OpCode} :
    extractFields w = .ok c ↔ 0 ≤ w ∧ w < 100000 ∧ (c.operation : Int) = w % 100 ∧
      decodeMode w 0 = .ok c.arg0Mode ∧ decodeMode w 1 = .ok c.arg1Mode ∧ decodeMode w 2 = .ok c.arg2Mode := by
  by_cases hr : w < 0 ∨ 100000 ≤ w
  · rw [extractFields_of_out_of_range hr]
    simp only [reduceCtorEq, false_iff]
    omega
  · rw [extractFields_of_in_range (by omega) (by omega)]
    constructor
    · intro h
      obtain ⟨m0, h0, h⟩ := bind_ok_iff.1 h
      obtain ⟨m1, h1, h⟩ := bind_ok_iff.1 h
      obtain ⟨m2, h2, h⟩ := bind_ok_iff.1 h
      cases h
      exact ⟨by omega, by omega, by simp only; omega, h0, h1, h2⟩
    · rintro ⟨_, _, hop, h0, h1, h2⟩
      simp only [h0, h1, h2, ok_bind, pure_ok, ← hop, Int.toNat_natCast]

/-- Field extraction accepts exactly the words with a two-digit operation field and mode digits 0 or 1 (rule R77). -/
theorem extractFields_ok_iff {w : Int} {c : OpCode} :
    extractFields w = .ok c ↔ c.operation ≤ 99 ∧ w = c.word := by
  have h0 := c.arg0Mode.digit_bounds
  have h1 := c.arg1Mode.digit_bounds
  have h2 := c.arg2Mode.digit_bounds
  simp only [extractFields_ok_iff_modes, decodeMode_ok_iff, OpCode.word, Fin.val_zero, Fin.val_one, Fin.val_two]
  omega

/-! ### The operation check -/

/-- The operation is one of the nine (rule R78). -/
def OpCode.Supported (c : OpCode) : Prop := 1 ≤ c.operation ∧ c.operation ≤ 8 ∨ c.operation = 99

/-- The fields of an instruction's word. -/
def Instr.fields (i : Instr) : OpCode := ⟨i.operation, i.mode 0, i.mode 1, i.mode 2⟩

theorem Instr.operation_le (i : Instr) : i.operation ≤ 99 := by
  cases i <;> simp [Instr.operation]

theorem selectInstr_fields (i : Instr) : selectInstr i.fields = some i := by
  cases i <;> rfl

/-- The operation check gives the instruction that has these fields. -/
theorem selectInstr_eq_some_iff {c : OpCode} {i : Instr} : selectInstr c = some i ↔ c = i.fields := by
  refine ⟨fun h => ?_, fun h => h ▸ selectInstr_fields i⟩
  obtain ⟨op, m0, m1, m2⟩ := c
  unfold selectInstr at h
  split at h <;> cases h <;> cases ‹op = _› <;> rfl

theorem selectInstr_eq_none_iff {c : OpCode} : selectInstr c = none ↔ ¬ c.Supported := by
  unfold selectInstr OpCode.Supported
  split <;> simp only [imp_false, reduceCtorEq, true_iff, false_iff] at * <;> omega

/-- Every supported operation has an instruction for every three modes (rule R82). -/
theorem OpCode.Supported.exists_fields {c : OpCode} (h : c.Supported) : ∃ i : Instr, i.fields = c := by
  obtain ⟨i, hi⟩ := Option.ne_none_iff_exists'.1 fun hnone => selectInstr_eq_none_iff.1 hnone h
  exact ⟨i, (selectInstr_eq_some_iff.1 hi).symm⟩

/-! ### The whole Decoder -/

theorem decode_of_extractFields_error {w : Int} {e : Err} (h : extractFields w = .error e) : decode w = .error e := by
  rw [decode, h, error_bind]

theorem decode_of_unsupported {w : Int} {c : OpCode} (h : extractFields w = .ok c) (hc : ¬ c.Supported) :
    decode w = .error (.invalidOpCode w) := by
  simp only [decode, h, ok_bind, selectInstr_eq_none_iff.2 hc]

/-- The Decoder answers the instruction whose fields it extracts. -/
theorem decode_ok_iff {w : Int} {i : Instr} : decode w = .ok i ↔ extractFields w = .ok i.fields := by
  constructor
  · intro h
    obtain ⟨c, hc, h⟩ := bind_ok_iff.1 h
    cases hs : selectInstr c with
    | none => simp [hs] at h
    | some j =>
      simp only [hs, pure_ok, Except.ok.injEq] at h
      rw [hc, selectInstr_eq_some_iff.1 hs, h]
  · intro h
    simp only [decode, h, ok_bind, selectInstr_fields, pure_ok]

theorem decode_eq_ok_iff_encode {w : Int} {i : Instr} : decode w = .ok i ↔ w = encode i := by
  rw [decode_ok_iff, extractFields_ok_iff]
  exact and_iff_right i.operation_le

@[simp] theorem decode_encode (i : Instr) : decode (encode i) = .ok i := decode_eq_ok_iff_encode.2 rfl

/-! ### The words that decode -/

/-- The words `op + 100*A + 1000*B + 10000*C` of the nine operations (rule R82). -/
def instructionWords : List Int :=
  [1, 2, 3, 4, 5, 6, 7, 8, 99].flatMap fun op => [0, 1].flatMap fun A => [0, 1].flatMap fun B =>
    [0, 1].map fun C => op + 100 * A + 1000 * B + 10000 * C

theorem mem_instructionWords {w : Int} :
    w ∈ instructionWords ↔ ∃ op ∈ ([1, 2, 3, 4, 5, 6, 7, 8, 99] : List Int), ∃ A ∈ ([0, 1] : List Int),
      ∃ B ∈ ([0, 1] : List Int), ∃ C ∈ ([0, 1] : List Int), w = op + 100 * A + 1000 * B + 10000 * C := by
  simp only [instructionWords, List.mem_flatMap, List.mem_map, eq_comm (a := w)]

theorem mem_bits_iff {A : Int} : A ∈ ([0, 1] : List Int) ↔ ∃ m : Mode, m.digit = A := by
  constructor
  · intro h
    rcases List.mem_pair.1 h with rfl | rfl
    · exact ⟨.position, rfl⟩
    · exact ⟨.immediate, rfl⟩
  · rintro ⟨m, rfl⟩
    cases m <;> decide

theorem Instr.operation_mem (i : Instr) : (i.operation : Int) ∈ ([1, 2, 3, 4, 5, 6, 7, 8, 99] : List Int) := by
  cases i <;> simp [Instr.operation]

/-- The words that decode are the words of rule R82. -/
theorem exists_decode_ok_iff {w : Int} : (∃ i, decode w = .ok i) ↔ w ∈ instructionWords := by
  rw [mem_instructionWords]
  constructor
  · rintro ⟨i, hi⟩
    exact ⟨i.operation, i.operation_mem, _, mem_bits_iff.2 ⟨i.mode 0, rfl⟩, _, mem_bits_iff.2 ⟨i.mode 1, rfl⟩,
      _, mem_bits_iff.2 ⟨i.mode 2, rfl⟩, decode_eq_ok_iff_encode.1 hi⟩
  · rintro ⟨op, hop, A, hA, B, hB, C, hC, rfl⟩
    obtain ⟨m0, rfl⟩ := mem_bits_iff.1 hA
    obtain ⟨m1, rfl⟩ := mem_bits_iff.1 hB
    obtain ⟨m2, rfl⟩ := mem_bits_iff.1 hC
    have hsupp : (OpCode.mk op.toNat m0 m1 m2).Supported ∧ (op.toNat : Int) = op := by
      simp only [List.mem_cons, List.not_mem_nil, or_false] at hop
      simp only [OpCode.Supported]
      omega
    obtain ⟨i, hi⟩ := hsupp.1.exists_fields
    refine ⟨i, decode_ok_iff.2 (extractFields_ok_iff.2 ⟨i.operation_le, ?_⟩)⟩
    rw [hi, OpCode.word, hsupp.2]

end Sys2Proof

open Sys2Proof Sys2Proof.Machine

/-- Settles O1: field extraction and the operation check are each inverted by the fields of the instruction. -/
theorem decodeAcceptsExactlyTheEncoding : Obligations.DecodeAcceptsExactlyTheEncoding :=
  fun _ _ => decode_eq_ok_iff_encode

/-- Settles O2: the list is written out from rule R82, so it can be counted, and it holds the encodings. -/
theorem seventyTwoWordsDecode : Obligations.SeventyTwoWordsDecode := by
  refine ⟨instructionWords, by decide, by decide, by decide, by decide, by decide, fun w => ?_⟩
  refine ⟨exists_decode_ok_iff, mem_instructionWords, fun hw => ?_⟩
  cases hd : decode w with
  | ok i => exact absurd (exists_decode_ok_iff.1 ⟨i, hd⟩) hw
  | error e => exact ⟨e, rfl⟩

/-- Settles O4, by field extraction as the inverse of `OpCode.word`. -/
theorem fieldsAreExtractedForEveryOperation : Obligations.FieldsAreExtractedForEveryOperation :=
  fun _ _ _ _ hop => extractFields_ok_iff.2 ⟨hop, rfl⟩

/-- Settles O5: each word is run through the Decoder. -/
theorem writtenOutWordsDecode : Obligations.WrittenOutWordsDecode := by
  unfold Obligations.WrittenOutWordsDecode
  decide

end

section
/-! The order of the Decoder's checks (O3) and what the run sees of them (O14). -/

namespace Sys2Proof

open Machine

/-! ### Each check in turn -/

/-- The mode of argument `k` when its digit is 0 or 1 (rule R77). -/
def modeAt (w : Int) (k : Fin 3) : Mode := if w / 10 ^ (2 + k.val) % 10 = 1 then .immediate else .position

theorem decodeMode_of_le_one {w : Int} {k : Fin 3} (h : w / 10 ^ (2 + k.val) % 10 ≤ 1) :
    decodeMode w k = .ok (modeAt w k) := by
  rw [decodeMode_ok_iff, modeAt]
  split <;> simp only [Mode.digit] <;> omega

theorem decodeMode_of_two_le {w : Int} {k : Fin 3} (h : 2 ≤ w / 10 ^ (2 + k.val) % 10) :
    decodeMode w k = .error (.invalidParamMode k (w / 10 ^ (2 + k.val) % 10).toNat) := by
  have hnone : modeOfDigit (digit w (2 + k.val)) = none := by
    refine Option.eq_none_iff_forall_ne_some.2 fun m hm => ?_
    have hle := m.digit_bounds.2
    rw [modeOfDigit_eq_some_iff, digit_cast] at hm
    omega
  rw [decodeMode, hnone]
  rfl

/-- The first mode digit that is refused decides the answer (rule R75). -/
theorem extractFields_of_first_bad_mode {w : Int} {k : Fin 3} {e : Err} (h0 : 0 ≤ w) (h1 : w < 100000)
    (hprev : ∀ j : Fin 3, j < k → decodeMode w j = .ok (modeAt w j)) (hk : decodeMode w k = .error e) :
    extractFields w = .error e := by
  rw [extractFields_of_in_range h0 h1]
  match k with
  | 0 => rw [hk, error_bind]
  | 1 => rw [hprev 0 (by decide), ok_bind, hk, error_bind]
  | 2 => rw [hprev 0 (by decide), ok_bind, hprev 1 (by decide), ok_bind, hk, error_bind]

theorem extractFields_of_modes_le_one {w : Int} (h0 : 0 ≤ w) (h1 : w < 100000)
    (hm : ∀ j : Fin 3, w / 10 ^ (2 + j.val) % 10 ≤ 1) :
    extractFields w = .ok ⟨(w % 100).toNat, modeAt w 0, modeAt w 1, modeAt w 2⟩ :=
  extractFields_ok_iff_modes.2 ⟨h0, h1, by simp only; omega, decodeMode_of_le_one (hm 0), decodeMode_of_le_one (hm 1),
    decodeMode_of_le_one (hm 2)⟩

theorem Instr.mode_of_fields_eq {i : Instr} {op : Nat} {m : Fin 3 → Mode} (h : i.fields = ⟨op, m 0, m 1, m 2⟩)
    (k : Fin 3) : i.mode k = m k := by
  injection h with _ h0 h1 h2
  match k with
  | 0 => exact h0
  | 1 => exact h1
  | 2 => exact h2

/-! ### The first digit that is refused -/

/-- Mode digits are all good, or one is the first that is not. -/
theorem modes_le_one_or_first_bad (w : Int) :
    (∀ k : Fin 3, w / 10 ^ (2 + k.val) % 10 ≤ 1) ∨
    ∃ k : Fin 3, (∀ j : Fin 3, j < k → w / 10 ^ (2 + j.val) % 10 ≤ 1) ∧ 2 ≤ w / 10 ^ (2 + k.val) % 10 := by
  by_contra hnone
  push Not at hnone
  obtain ⟨⟨k, hk⟩, hfirst⟩ := hnone
  have hall : ∀ k : Fin 3, w / 10 ^ (2 + k.val) % 10 ≤ 1 := fun k => by
    induction k using WellFoundedLT.induction with
    | ind k ih => exact Int.le_of_lt_add_one (hfirst k ih)
  exact absurd (hall k) (by omega)

end Sys2Proof

open Sys2Proof Sys2Proof.Machine

/-- Settles O3, one check after the other. -/
theorem decoderChecksRangeThenModesThenOperation : Obligations.DecoderChecksRangeThenModesThenOperation := by
  intro w
  refine ⟨fun hr => decode_of_extractFields_error (extractFields_of_out_of_range hr), fun h0 h1 => ⟨?_, fun hm => ?_⟩⟩
  · intro k hprev hk
    exact decode_of_extractFields_error (extractFields_of_first_bad_mode h0 h1
      (fun j hj => decodeMode_of_le_one (hprev j hj)) (decodeMode_of_two_le hk))
  · have hfields := extractFields_of_modes_le_one h0 h1 hm
    have hop : ((w % 100).toNat : Int) = w % 100 := by omega
    constructor
    · intro hunsupported
      refine decode_of_unsupported hfields fun hsupported => hunsupported ?_
      simp only [OpCode.Supported] at hsupported
      omega
    · intro hsupported
      have hc : (OpCode.mk (w % 100).toNat (modeAt w 0) (modeAt w 1) (modeAt w 2)).Supported := by
        simp only [OpCode.Supported]
        omega
      obtain ⟨i, hi⟩ := hc.exists_fields
      refine ⟨i, decode_ok_iff.2 (hi ▸ hfields), ?_, Instr.mode_of_fields_eq hi⟩
      rw [← hop]
      exact congrArg (fun c => (c.operation : Int)) hi

namespace Sys2Proof.Machine

/-! ### The Decoder's answers, by what the digits are -/

/-- Everything the Decoder can answer, with the digits it answers it for (rules R74, R75, R78 and R79). -/
theorem decode_cases (w : Int) :
    ((w < 0 ∨ 100000 ≤ w) ∧ decode w = .error (.invalidOpCode w)) ∨
    (0 ≤ w ∧ w < 100000 ∧ (∃ k : Fin 3, 2 ≤ w / 10 ^ (2 + k.val) % 10) ∧
      ∃ k m, decode w = .error (.invalidParamMode k m)) ∨
    (0 ≤ w ∧ w < 100000 ∧ (∀ k : Fin 3, w / 10 ^ (2 + k.val) % 10 ≤ 1) ∧
      ((w % 100 = 0 ∨ 9 ≤ w % 100 ∧ w % 100 ≤ 98) ∧ decode w = .error (.invalidOpCode w) ∨
       ¬ (w % 100 = 0 ∨ 9 ≤ w % 100 ∧ w % 100 ≤ 98) ∧ ∃ i, decode w = .ok i)) := by
  obtain ⟨hrange, hin⟩ := decoderChecksRangeThenModesThenOperation w
  by_cases hr : w < 0 ∨ 100000 ≤ w
  · exact .inl ⟨hr, hrange hr⟩
  have h0 : 0 ≤ w := by omega
  have h1 : w < 100000 := by omega
  obtain ⟨hmodes, hop⟩ := hin h0 h1
  rcases modes_le_one_or_first_bad w with hm | ⟨k, hprev, hk⟩
  · refine .inr (.inr ⟨h0, h1, hm, ?_⟩)
    obtain ⟨hunsupported, hsupported⟩ := hop hm
    by_cases hbad : w % 100 = 0 ∨ 9 ≤ w % 100 ∧ w % 100 ≤ 98
    · exact .inl ⟨hbad, hunsupported (by omega)⟩
    · obtain ⟨i, hi, _⟩ := hsupported (by omega)
      exact .inr ⟨hbad, i, hi⟩
  · exact .inr (.inl ⟨h0, h1, ⟨k, hk⟩, k, _, hmodes k hprev hk⟩)

/-- The Decoder raises `InvalidParamMode` exactly for a word in range with a mode digit 2 to 9 (rule R75). -/
theorem decode_invalidParamMode_iff {w : Int} :
    (∃ k m, decode w = .error (.invalidParamMode k m)) ↔
      0 ≤ w ∧ w < 100000 ∧ ∃ k : Fin 3, 2 ≤ w / 10 ^ (2 + k.val) % 10 := by
  rcases decode_cases w with ⟨hr, hd⟩ | ⟨h0, h1, hk, hd⟩ | ⟨_, _, hm, ⟨_, hd⟩ | ⟨_, i, hd⟩⟩
  · simp only [hd, Except.error.injEq, reduceCtorEq, exists_false, false_iff]
    omega
  · exact iff_of_true hd ⟨h0, h1, hk⟩
  all_goals
    simp only [hd, Except.error.injEq, reduceCtorEq, exists_false, false_iff]
    rintro ⟨_, _, k, hk⟩
    exact absurd (hm k) (by omega)

/-- The Decoder raises `InvalidOpCode` exactly for a word out of range, or one with good mode digits and no supported
operation (rules R74 and R78). -/
theorem decode_invalidOpCode_iff {w : Int} :
    (∃ v, decode w = .error (.invalidOpCode v)) ↔
      w < 0 ∨ 100000 ≤ w ∨
        ((∀ k : Fin 3, w / 10 ^ (2 + k.val) % 10 ≤ 1) ∧ (w % 100 = 0 ∨ 9 ≤ w % 100 ∧ w % 100 ≤ 98)) := by
  rcases decode_cases w with ⟨hr, hd⟩ | ⟨h0, h1, ⟨k, hk⟩, _, _, hd⟩ | ⟨h0, h1, hm, ⟨hop, hd⟩ | ⟨hop, i, hd⟩⟩
  · exact iff_of_true ⟨w, hd⟩ (or_assoc.1 (.inl hr))
  · simp only [hd, Except.error.injEq, reduceCtorEq, exists_false, false_iff]
    rintro (hlt | hge | ⟨hm, _⟩)
    · omega
    · omega
    · exact absurd (hm k) (by omega)
  · exact iff_of_true ⟨w, hd⟩ (.inr (.inr ⟨hm, hop⟩))
  · simp only [hd, reduceCtorEq, exists_false, false_iff]
    rintro (hlt | hge | ⟨_, hbad⟩)
    · omega
    · omega
    · exact hop hbad

/-! ### The decode error as the run sees it -/

/-- Completing an instruction does not fail the run. -/
theorem Completed.runState_ne_failed {i : Instr} {s t : State} (h : Completed i s t) (hrun : s.runState = .running) :
    t.runState ≠ .failed := by
  cases i with
  | add _ _ _ | mul _ _ _ => obtain ⟨_, _, _, _, rfl⟩ := h; simp [hrun]
  | lessThan _ _ _ | equals _ _ _ => obtain ⟨_, _, rfl⟩ := h; simp [hrun]
  | input _ _ _ => obtain ⟨_, _, _, _, _, rfl⟩ := h; simp [hrun]
  | output _ _ _ => obtain ⟨_, rfl⟩ := h; simp [hrun]
  | jumpIfTrue _ _ _ | jumpIfFalse _ _ _ => cases h; simp [hrun]
  | terminate _ _ _ => cases h; simp

theorem failedWith_inj {s : State} {e e' : Err} (h : failedWith s e = failedWith s e') : e = e' :=
  Option.some.inj (congrArg State.err h)

/-- An error that no instruction raises fails a fetched step exactly when the Decoder raises it (rule R122). -/
theorem step_failedWith_iff_decode {s : State} {e : Err} (hrun : s.runState = .running) (hpc : s.mem.InRange s.pc)
    (he : ∀ i, ¬ MayRaise i s e) :
    step s = .next (failedWith s e) ↔ decode (s.mem.cell s.pc.toNat) = .error e := by
  constructor
  · intro h
    obtain ⟨_, ⟨hout, _⟩ | ⟨_, e', hd, ht⟩ | ⟨i, _, hx⟩⟩ := step_next_cases h
    · exact absurd hpc hout
    · exact failedWith_inj ht ▸ hd
    · rcases exec_next_cases hx with hc | ⟨e', hraise, ht⟩
      · exact absurd rfl (hc.runState_ne_failed hrun)
      · exact absurd (failedWith_inj ht ▸ hraise) (he i)
  · intro hd
    simp only [step, hrun, fetch, if_pos hpc, hd]
    rfl

end Sys2Proof.Machine

/-- Settles O14: no instruction raises a decode error, so the step fails with one exactly when the Decoder raises it. -/
theorem illegalEncodingsFailTheRun : Obligations.IllegalEncodingsFailTheRun := by
  intro s hrun hpc
  constructor
  · rw [← decode_invalidParamMode_iff]
    exact exists₂_congr fun k m => step_failedWith_iff_decode hrun hpc fun _ h => h
  · rw [← decode_invalidOpCode_iff]
    exact exists_congr fun v => step_failedWith_iff_decode hrun hpc fun _ h => h

end

section
/-! What a decoded word fixes: the Decoder block's output (O6), the instruction's effect (O7) and its line of assembly
(O8). -/

namespace Sys2Proof

open Machine

/-! ### The operation field and the mode digits of a word that decodes -/

theorem operation_of_decode {w : Int} {i : Instr} (h : decode w = .ok i) : (i.operation : Int) = w % 100 := by
  obtain ⟨_, _, hop, _⟩ := extractFields_ok_iff_modes.1 (decode_ok_iff.1 h)
  exact hop

theorem mode_digit_of_decode {w : Int} {i : Instr} (h : decode w = .ok i) (k : Fin 3) :
    w / 10 ^ (2 + k.val) % 10 = (i.mode k).digit := by
  obtain ⟨_, _, _, h0, h1, h2⟩ := extractFields_ok_iff_modes.1 (decode_ok_iff.1 h)
  match k with
  | 0 => exact decodeMode_ok_iff.1 h0
  | 1 => exact decodeMode_ok_iff.1 h1
  | 2 => exact decodeMode_ok_iff.1 h2

theorem Mode.digit_inj {m m' : Mode} (h : m.digit = m'.digit) : m = m' := by
  cases m <;> cases m' <;> simp_all [Mode.digit]

/-! ### The Decoder block -/

/-- What the Decoder block delivers for an instruction (rule R81). -/
def Instr.decoderOutput (i : Instr) : DecoderOutput := ⟨i.fields, i.nargs, i.length⟩

theorem decoderBlock_of_decode {w : Int} {i : Instr} (h : decode w = .ok i) :
    decoderBlock w = .ok i.decoderOutput := by
  rw [decoderBlock, h]
  rfl

theorem decoderBlock_of_decode_error {w : Int} {e : Err} (h : decode w = .error e) : decoderBlock w = .error e := by
  rw [decoderBlock, h, error_bind]

theorem decoderBlock_ok {w : Int} {o : DecoderOutput} (h : decoderBlock w = .ok o) :
    ∃ i, decode w = .ok i ∧ o = i.decoderOutput := by
  obtain ⟨i, hi, h⟩ := bind_ok_iff.1 h
  exact ⟨i, hi, by cases h; rfl⟩

theorem Instr.length_eq (i : Instr) : i.length = 1 + i.nargs := by
  cases i <;> rfl

/-- The length is a function of the operation (rules R73 and R84). -/
theorem Instr.length_of_operation (i : Instr) :
    (i.operation = 1 ∨ i.operation = 2 ∨ i.operation = 7 ∨ i.operation = 8 → i.length = 4) ∧
    (i.operation = 3 ∨ i.operation = 4 → i.length = 2) ∧ (i.operation = 5 ∨ i.operation = 6 → i.length = 3) ∧
    (i.operation = 99 → i.length = 1) := by
  cases i <;> simp [Instr.operation, Instr.length]

/-! ### One operation, other modes -/

/-- The instruction of the same operation with the mode digits `m0`, `m1`, `m2`. -/
def Instr.withModes (i : Instr) (m0 m1 m2 : Mode) : Instr :=
  match i with
  | .add _ _ _ => .add m0 m1 m2
  | .mul _ _ _ => .mul m0 m1 m2
  | .input _ _ _ => .input m0 m1 m2
  | .output _ _ _ => .output m0 m1 m2
  | .jumpIfTrue _ _ _ => .jumpIfTrue m0 m1 m2
  | .jumpIfFalse _ _ _ => .jumpIfFalse m0 m1 m2
  | .lessThan _ _ _ => .lessThan m0 m1 m2
  | .equals _ _ _ => .equals m0 m1 m2
  | .terminate _ _ _ => .terminate m0 m1 m2

theorem Instr.fields_withModes (i : Instr) (m0 m1 m2 : Mode) :
    (i.withModes m0 m1 m2).fields = ⟨i.operation, m0, m1, m2⟩ := by
  cases i <;> rfl

theorem Instr.fields_inj {i j : Instr} (h : i.fields = j.fields) : i = j :=
  Option.some.inj ((selectInstr_fields i).symm.trans ((congrArg selectInstr h).trans (selectInstr_fields j)))

/-- Instructions of one operation differ in their mode digits only. -/
theorem Instr.eq_withModes {i j : Instr} (h : i.operation = j.operation) :
    j = i.withModes (j.mode 0) (j.mode 1) (j.mode 2) :=
  Instr.fields_inj (by rw [fields_withModes, h]; rfl)

/-- The mode digits of arguments an operation does not have change nothing (rule R83). -/
theorem exec_withModes {i : Instr} {m : Fin 3 → Mode} (hm : ∀ k : Fin 3, k.val < i.nargs → i.mode k = m k)
    (s : State) :
    exec (i.withModes (m 0) (m 1) (m 2)) s = exec i s := by
  cases i with
  | add m0 m1 m2 | mul m0 m1 m2 | lessThan m0 m1 m2 | equals m0 m1 m2 =>
    obtain rfl : m0 = m 0 := hm 0 (by simp [Instr.nargs])
    obtain rfl : m1 = m 1 := hm 1 (by simp [Instr.nargs])
    obtain rfl : m2 = m 2 := hm 2 (by simp [Instr.nargs])
    rfl
  | jumpIfTrue m0 m1 m2 | jumpIfFalse m0 m1 m2 =>
    obtain rfl : m0 = m 0 := hm 0 (by simp [Instr.nargs])
    obtain rfl : m1 = m 1 := hm 1 (by simp [Instr.nargs])
    rfl
  | input m0 m1 m2 | output m0 m1 m2 =>
    obtain rfl : m0 = m 0 := hm 0 (by simp [Instr.nargs])
    rfl
  | terminate m0 m1 m2 => rfl

/-! ### Lines of assembly -/

@[simp] theorem operandOf_operand (x : Operand) : operandOf (operandMode x) (operandWord x) = x := by
  cases x <;> rfl

theorem assemble_of_instr {l : Asm} {i : Instr} (h : instrOfAsm l = some i) :
    assemble l = encode i :: asmOperands l := by
  rw [assemble, h]

/-- A line has as many operands as its instruction has arguments (rule R103). -/
theorem length_asmOperands {l : Asm} {i : Instr} (h : instrOfAsm l = some i) : (asmOperands l).length = i.nargs := by
  cases l <;> cases h <;> rfl

/-- The mode digit of an operand a line does not have is 0 (rule R103). -/
theorem mode_of_nargs_le {l : Asm} {i : Instr} (h : instrOfAsm l = some i) (k : Fin 3) (hk : i.nargs ≤ k.val) :
    i.mode k = .position := by
  cases l with
  | add _ _ _ | mul _ _ _ | lessThan _ _ _ | equals _ _ _ =>
    cases h
    exact absurd k.isLt (Nat.not_lt.2 hk)
  | jumpIfTrue _ _ | jumpIfFalse _ _ =>
    cases h
    obtain rfl : k = 2 := Fin.last_le_iff.1 hk
    rfl
  | input _ | output _ =>
    cases h
    match k with
    | 0 => exact absurd hk (by simp [Instr.nargs])
    | 1 | 2 => rfl
  | terminate =>
    cases h
    match k with
    | 0 | 1 | 2 => rfl
  | word _ => cases h

/-- Disassembly reads a line's mode digits and argument words back as its operands (rule R104). -/
theorem disassemble_encode {l : Asm} {i : Instr} (h : instrOfAsm l = some i) (rest : List Int) :
    disassemble (encode i :: (asmOperands l ++ rest)) = some l := by
  cases l <;> cases h <;> simp [disassemble, asmOperands]

end Sys2Proof

open Sys2Proof Sys2Proof.Machine

/-- Settles O6: the Decoder block delivers the decoded instruction's own fields, count and length. -/
theorem lengthIsAFunctionOfTheOperation : Obligations.LengthIsAFunctionOfTheOperation := by
  intro w
  refine ⟨fun i hi => ⟨_, decoderBlock_of_decode hi, rfl, rfl, rfl⟩, fun e => decoderBlock_of_decode_error,
    fun o ho => ?_⟩
  obtain ⟨i, hi, rfl⟩ := decoderBlock_ok ho
  have hop := operation_of_decode hi
  refine ⟨hop, i.length_eq, ?_⟩
  rw [← hop]
  exact_mod_cast i.length_of_operation

/-- Settles O7: the two instructions are one operation whose mode digits differ only where it has no argument. -/
theorem unusedModeDigitsChangeNothing : Obligations.UnusedModeDigitsChangeNothing := by
  intro w w' i i' hi hi' hop hdigits s
  have hop' : i.operation = i'.operation := by
    have hi_op := operation_of_decode hi
    have hi'_op := operation_of_decode hi'
    omega
  have hmodes (k : Fin 3) (hk : k.val < i.nargs) : i.mode k = i'.mode k := by
    apply Mode.digit_inj
    rw [← mode_digit_of_decode hi, ← mode_digit_of_decode hi', hdigits k hk]
  rw [Instr.eq_withModes hop', exec_withModes hmodes]

/-- Settles O8: the encoding decodes to the line's instruction, and its operands are read back one by one. -/
theorem disassemblyInvertsAssembly : Obligations.DisassemblyInvertsAssembly := by
  intro l i rest h
  rw [assemble_of_instr h]
  refine ⟨disassemble_encode h rest, ?_, rfl, mode_of_nargs_le h⟩
  rw [List.length_cons, length_asmOperands h, i.length_eq, Nat.add_comm]

end

section
/-! Resolving the declared arguments: the first that does not resolve fails the instruction (O27), a ready one gives its
operand's value (O28), and a ready Immediate target fails the instruction before its own check (O29). -/

namespace Sys2Proof.Machine

/-! ### One argument -/

/-- An argument word beyond the end of memory (rule R93). -/
theorem resolve_of_length_le {s : State} {k : Fin 3} (m : Mode) (h : s.mem.length ≤ s.pc + 1 + k.val) :
    resolve s k m = .error (.operandFetchOutOfBounds k (s.pc + 1 + k.val)) :=
  if_pos h

/-- A Position word outside memory (rule R95). -/
theorem resolve_position_of_not_inRange {s : State} {k : Fin 3} (hlt : s.pc + 1 + k.val < s.mem.length)
    (hr : ¬ s.mem.InRange (argWord s k)) :
    resolve s k .position = .error (.positionOutOfBounds k (argWord s k)) := by
  rcases resolve_cases s k .position with ⟨hle, _⟩ | ⟨_, _, _, h⟩ | ⟨_, hin, _⟩
  · exact absurd hle (by omega)
  · exact h
  · exact absurd (hin rfl) hr

/-! ### The declared arguments in order -/

section

variable {s : State} {mode : Fin 3 → Mode} {k : Fin 3} {e : Err}

theorem withArgs1_of_unresolved (f : Param → Except Err Effects) (hk : k.val < 1)
    (herr : resolve s k (mode k) = .error e) : withArgs1 s (mode 0) f = .error e := by
  obtain rfl : k = 0 := by omega
  rw [withArgs1, herr, error_bind]

theorem withArgs2_of_unresolved (f : Param → Param → Except Err Effects) (hk : k.val < 2)
    (hready : ∀ j, j < k → ArgReady s j (mode j)) (herr : resolve s k (mode k) = .error e) :
    withArgs2 s (mode 0) (mode 1) f = .error e := by
  match k with
  | 0 => rw [withArgs2, herr, error_bind]
  | 1 => rw [withArgs2, resolve_of_ready (hready 0 (by decide)), ok_bind, herr, error_bind]

theorem withArgs3_of_unresolved (f : Param → Param → Param → Except Err Effects)
    (hready : ∀ j, j < k → ArgReady s j (mode j)) (herr : resolve s k (mode k) = .error e) :
    withArgs3 s (mode 0) (mode 1) (mode 2) f = .error e := by
  match k with
  | 0 => rw [withArgs3, herr, error_bind]
  | 1 => rw [withArgs3, resolve_of_ready (hready 0 (by decide)), ok_bind, herr, error_bind]
  | 2 =>
    rw [withArgs3, resolve_of_ready (hready 0 (by decide)), ok_bind, resolve_of_ready (hready 1 (by decide)), ok_bind,
      herr, error_bind]

end

/-- The first declared argument that does not resolve decides what the instruction reports (rule R91). -/
theorem instrEffects_of_unresolved {i : Instr} {s : State} {k : Fin 3} {e : Err} (hk : k.val < i.nargs)
    (hready : ∀ j, j < k → ArgReady s j (i.mode j)) (herr : resolve s k (i.mode k) = .error e) :
    instrEffects i s = .error e := by
  cases i with
  | add _ _ _ | mul _ _ _ | lessThan _ _ _ | equals _ _ _ => exact withArgs3_of_unresolved _ hready herr
  | jumpIfTrue _ _ _ | jumpIfFalse _ _ _ => exact withArgs2_of_unresolved _ hk hready herr
  | input _ _ _ | output _ _ _ => exact withArgs1_of_unresolved _ hk herr
  | terminate _ _ _ => exact absurd hk (Nat.not_lt_zero _)

/-- With its arguments ready, an instruction that has a target reports an Immediate one before anything else
(rule R97). -/
theorem instrEffects_of_immediate_target {i : Instr} {s : State} {k : Fin 3} (htarget : i.targetArg = some k)
    (hmode : i.mode k = .immediate) (hready : ∀ j : Fin 3, j.val < i.nargs → ArgReady s j (i.mode j)) :
    instrEffects i s = .error (.immediateTargetParam k) := by
  cases i with
  | add m0 m1 m2 | mul m0 m1 m2 | lessThan m0 m1 m2 | equals m0 m1 m2 =>
    cases htarget
    obtain rfl : m2 = .immediate := hmode
    exact withArgs3_of_ready _ (hready 0 (by simp [Instr.nargs])) (hready 1 (by simp [Instr.nargs]))
      (hready 2 (by simp [Instr.nargs]))
  | input m0 _ _ =>
    cases htarget
    obtain rfl : m0 = .immediate := hmode
    exact withArgs1_of_ready _ (hready 0 (by simp [Instr.nargs]))
  | output _ _ _ | jumpIfTrue _ _ _ | jumpIfFalse _ _ _ | terminate _ _ _ => cases htarget

/-- An instruction that reports an error fails with it and changes nothing else (rule R120). -/
theorem exec_of_instrEffects_error {i : Instr} {s : State} {e : Err} (h : instrEffects i s = .error e) :
    exec i s = .next (failedWith s e) := by
  rw [exec_eq_complete, h]
  rfl

theorem exec_of_immediate_target {i : Instr} {s : State} {k : Fin 3} (htarget : i.targetArg = some k)
    (hmode : i.mode k = .immediate) (hready : ∀ j : Fin 3, j.val < i.nargs → ArgReady s j (i.mode j)) :
    exec i s = .next (failedWith s (.immediateTargetParam k)) :=
  exec_of_instrEffects_error (instrEffects_of_immediate_target htarget hmode hready)

end Sys2Proof.Machine

open Sys2Proof Sys2Proof.Machine

/-- Settles O27: the instruction reports the error of the first argument that does not resolve, and nothing else. -/
theorem firstUnresolvedArgumentFailsTheInstruction : Obligations.FirstUnresolvedArgumentFailsTheInstruction := by
  intro i s k hk _ hready
  refine ⟨fun hle => ?_, fun hlt hmode hout => ?_⟩
  · exact exec_of_instrEffects_error (instrEffects_of_unresolved hk hready (resolve_of_length_le _ hle))
  · have herr := resolve_position_of_not_inRange hlt (by omega : ¬ s.mem.InRange (argWord s k))
    exact exec_of_instrEffects_error (instrEffects_of_unresolved hk hready (hmode ▸ herr))

/-- Settles O28: a ready argument resolves to `paramOf`, whose value is the operand's. -/
theorem readyArgumentResolvesToItsValue : Obligations.ReadyArgumentResolvesToItsValue := by
  intro s i m h
  refine ⟨paramOf s i m, resolve_of_ready h, value_paramOf s i m, ?_, ?_⟩
  · rintro rfl
    rfl
  · rintro rfl
    exact ⟨rfl, targetIndex_lt h⟩

/-- Settles O29: each of the five has its target among its arguments, and all of them are ready. -/
theorem immediateTargetFailsBeforeOwnChecks : Obligations.ImmediateTargetFailsBeforeOwnChecks := by
  constructor
  · intro s m0 m1 h0 h1 h2
    have hready (j : Fin 3) : ArgReady s j ((Instr.add m0 m1 .immediate).mode j) := by
      match j with
      | 0 => exact h0
      | 1 => exact h1
      | 2 => exact h2
    refine ⟨?_, ?_, ?_, ?_⟩ <;> exact exec_of_immediate_target rfl rfl fun j _ => hready j
  · intro s m1 m2 h0
    refine exec_of_immediate_target rfl rfl fun j hj => ?_
    obtain rfl : j = 0 := (Fin.lt_one_iff j).1 hj
    exact h0

end

section
/-! The sequencer's step: what it fetches (O12, O13), when there is one (O15), and the ways it ends: failing (O16),
halting (O18), moving the pointer (O19), and jumping outside memory (O36). -/

namespace Sys2Proof.Machine

/-! ### The fetch -/

/-- A pointer outside memory fails the run at the fetch (rule R112). -/
theorem step_of_not_inRange {s : State} (hrun : s.runState = .running) (hpc : ¬ s.mem.InRange s.pc) :
    step s = .next (failedWith s (.pcOutOfBounds s.pc)) := by
  simp only [step, hrun, fetch, if_neg hpc]
  rfl

/-! ### How a completed instruction leaves the run state and the pointer (rule R118) -/

/-- A completed instruction is a Terminate, which halts, or leaves the run state. -/
theorem Completed.halts_or_keeps_runState {i : Instr} {s t : State} (h : Completed i s t) :
    (∃ m0 m1 m2, i = .terminate m0 m1 m2 ∧ t = { s with runState := .halted }) ∨ t.runState = s.runState := by
  cases i with
  | add _ _ _ | mul _ _ _ => obtain ⟨_, _, _, _, rfl⟩ := h; exact .inr rfl
  | lessThan _ _ _ | equals _ _ _ => obtain ⟨_, _, rfl⟩ := h; exact .inr rfl
  | input _ _ _ => obtain ⟨_, _, _, _, _, rfl⟩ := h; exact .inr rfl
  | output _ _ _ => obtain ⟨_, rfl⟩ := h; exact .inr rfl
  | jumpIfTrue _ _ _ | jumpIfFalse _ _ _ => cases h; exact .inr rfl
  | terminate m0 m1 m2 => exact .inl ⟨m0, m1, m2, rfl, h⟩

/-- A step that halts ran a Terminate, and changed only the run state (rules R180 and R181). -/
theorem step_halted {s t : State} (hstep : step s = .next t) (hhalted : t.runState = .halted) :
    ∃ m0 m1 m2, Fetches s (.terminate m0 m1 m2) ∧ t = { s with runState := .halted } := by
  rcases step_next_completed hstep with ⟨i, hf, hc⟩ | ⟨e, rfl⟩
  · rcases hc.halts_or_keeps_runState with ⟨m0, m1, m2, rfl, ht⟩ | hkeep
    · exact ⟨m0, m1, m2, hf, ht⟩
    · simp [hkeep, hf.1] at hhalted
  · cases hhalted

/-- A step that fails changes only the run state and the error (rule R120). -/
theorem step_failed {s t : State} (hstep : step s = .next t) (hfailed : t.runState = .failed) :
    ∃ e, t = failedWith s e := by
  rcases step_next_completed hstep with ⟨i, hf, hc⟩ | hfail
  · exact absurd hfailed (hc.runState_ne_failed hf.1)
  · exact hfail

/-- A step that stays Running completed the instruction it fetched. -/
theorem step_running {s t : State} (hstep : step s = .next t) (hrun : t.runState = .running) :
    ∃ i, Fetches s i ∧ Completed i s t := by
  rcases step_next_completed hstep with hc | ⟨e, rfl⟩
  · exact hc
  · cases hrun

/-- The pointer after instruction `i`, as rule R118's table gives it. -/
def PointerAfter (i : Instr) (s : State) (pc : Int) : Prop :=
  (i.operation = 1 ∨ i.operation = 2 ∨ i.operation = 7 ∨ i.operation = 8) ∧ pc = s.pc + 4 ∨
  (i.operation = 3 ∨ i.operation = 4) ∧ pc = s.pc + 2 ∨
  i.operation = 5 ∧ pc = (if 0 < operandValue s 0 (i.mode 0) then operandValue s 1 (i.mode 1) else s.pc + 3) ∨
  i.operation = 6 ∧ pc = (if 0 < operandValue s 0 (i.mode 0) then s.pc + 3 else operandValue s 1 (i.mode 1))

theorem Completed.pointerAfter {i : Instr} {s t : State} (h : Completed i s t) (hrun : t.runState = .running) :
    PointerAfter i s t.pc := by
  cases i with
  | add _ _ _ | mul _ _ _ =>
    obtain ⟨_, _, _, _, rfl⟩ := h
    exact .inl ⟨by simp [Instr.operation], rfl⟩
  | lessThan _ _ _ | equals _ _ _ =>
    obtain ⟨_, _, rfl⟩ := h
    exact .inl ⟨by simp [Instr.operation], rfl⟩
  | input _ _ _ =>
    obtain ⟨_, _, _, _, _, rfl⟩ := h
    exact .inr (.inl ⟨.inl rfl, rfl⟩)
  | output _ _ _ =>
    obtain ⟨_, rfl⟩ := h
    exact .inr (.inl ⟨.inr rfl, rfl⟩)
  | jumpIfTrue _ _ _ =>
    cases h
    exact .inr (.inr (.inl ⟨rfl, rfl⟩))
  | jumpIfFalse _ _ _ =>
    cases h
    exact .inr (.inr (.inr ⟨rfl, rfl⟩))
  | terminate _ _ _ =>
    cases h
    cases hrun

/-! ### The jumps (rules R160 to R163) -/

/-- JumpIfTrue with ready operands goes to its target exactly when its condition is positive. -/
theorem exec_jumpIfTrue_of_ready {s : State} {m0 m1 : Mode} (m2 : Mode) (h0 : ArgReady s 0 m0)
    (h1 : ArgReady s 1 m1) :
    exec (.jumpIfTrue m0 m1 m2) s =
      .next { s with pc := if 0 < operandValue s 0 m0 then operandValue s 1 m1 else s.pc + 3 } := by
  have heffects : instrEffects (.jumpIfTrue m0 m1 m2) s =
      .ok ⟨none, false, none, .goto (if 0 < operandValue s 0 m0 then operandValue s 1 m1 else s.pc + 3)⟩ := by
    simp [instrEffects, withArgs2_of_ready _ h0 h1, jumpEffects]
  rw [exec_eq_complete, heffects]
  rfl

/-- JumpIfFalse with ready operands goes to its target exactly when its condition is not positive. -/
theorem exec_jumpIfFalse_of_ready {s : State} {m0 m1 : Mode} (m2 : Mode) (h0 : ArgReady s 0 m0)
    (h1 : ArgReady s 1 m1) :
    exec (.jumpIfFalse m0 m1 m2) s =
      .next { s with pc := if 0 < operandValue s 0 m0 then s.pc + 3 else operandValue s 1 m1 } := by
  have heffects : instrEffects (.jumpIfFalse m0 m1 m2) s =
      .ok ⟨none, false, none, .goto (if 0 < operandValue s 0 m0 then s.pc + 3 else operandValue s 1 m1)⟩ := by
    by_cases hpos : 0 < operandValue s 0 m0 <;>
      simp [instrEffects, withArgs2_of_ready _ h0 h1, jumpEffects, truthy, hpos]
  rw [exec_eq_complete, heffects]
  rfl

end Sys2Proof.Machine

open Sys2Proof Sys2Proof.Machine

/-- Settles O12: a Running state in range whose word decodes fetches that instruction. -/
theorem stepRunsTheDecodedInstruction : Obligations.StepRunsTheDecodedInstruction :=
  ⟨fun _ _ hrun h0 hlt hdecode => step_of_fetches ⟨hrun, ⟨h0, hlt⟩, hdecode⟩, rfl⟩

/-- Settles O13, by the two answers of the fetch. -/
theorem fetchReadsMemoryOrFails : Obligations.FetchReadsMemoryOrFails := by
  refine fun s => ⟨fun h0 hlt => if_pos ⟨h0, hlt⟩, fun hrun hout => step_of_not_inRange hrun ?_⟩
  rintro ⟨h0, hlt⟩
  omega

/-- Settles O15: a Running state commits or fails, and a stopped one has no step. -/
theorem onlyRunningStatesStep : Obligations.OnlyRunningStatesStep := by
  intro s
  refine ⟨⟨?_, exists_step_of_running⟩, fun h => ?_, fun h => ?_⟩
  · rintro ⟨_, hstep⟩
    exact runState_of_step_next hstep
  · simp only [step, h]
  · simp only [step, h]

/-- Settles O16: a step that leads to Failed is failure entry. -/
theorem failureChangesOnlyStateAndErr : Obligations.FailureChangesOnlyStateAndErr :=
  fun _ _ => step_failed

/-- Settles O18: of the completed instructions only Terminate changes the run state. -/
theorem onlyTerminateHalts : Obligations.OnlyTerminateHalts := by
  intro s t hstep hhalted
  obtain ⟨m0, m1, m2, hf, ht⟩ := step_halted hstep hhalted
  exact ⟨⟨m0, m1, m2, hf⟩, ht⟩

/-- Settles O19: Terminate and a failure leave the pointer, and every other instruction moves it by the table. -/
theorem pointerMovesOnlyAsTheTableSays : Obligations.PointerMovesOnlyAsTheTableSays := by
  intro s t hstep
  refine ⟨fun hhalted => ?_, fun hfailed => ?_, fun hrun => ?_⟩
  · obtain ⟨m0, m1, m2, hf, rfl⟩ := step_halted hstep hhalted
    exact ⟨_, hf, rfl, rfl⟩
  · obtain ⟨e, rfl⟩ := step_failed hstep hfailed
    rfl
  · obtain ⟨i, hf, hc⟩ := step_running hstep hrun
    exact ⟨i, hf, hc.pointerAfter hrun⟩

/-- Settles O36: the jump stores its target unchecked, and the next fetch finds it outside memory. -/
theorem jumpOutsideMemoryFailsAtTheNextFetch : Obligations.JumpOutsideMemoryFailsAtTheNextFetch := by
  intro s m0 m1 m2 h0 h1 hout t
  have hnext (hrun : s.runState = .running) : step t = .next (failedWith t (.pcOutOfBounds (operandValue s 1 m1))) :=
    step_of_not_inRange hrun hout
  constructor
  · intro hpos hf
    refine ⟨?_, hnext hf.1⟩
    rw [step_of_fetches hf, exec_jumpIfTrue_of_ready m2 h0 h1, if_pos hpos]
  · intro hnonpos hf
    refine ⟨?_, hnext hf.1⟩
    rw [step_of_fetches hf, exec_jumpIfFalse_of_ready m2 h0 h1, if_neg (Int.not_lt.2 hnonpos)]

end

section
/-! Loading one instruction where the next step fetches (O26): what the words written from an index on read as. -/

namespace Sys2Proof.Machine

@[simp] theorem grow_length (m : Memory) (n : Nat) : (m.grow n).length = max m.length n := rfl
@[simp] theorem grow_cell (m : Memory) (n a : Nat) : (m.grow n).cell a = m.cell a := rfl

@[simp] theorem writeWords_length (m : Memory) (a : Nat) (ws : List Int) :
    (m.writeWords a ws).length = m.length := by
  induction ws generalizing m a with
  | nil => rfl
  | cons v rest ih => rw [Memory.writeWords, ih, write_length]

/-- Writing words from `a` on leaves the words before `a` and those after the last one written. -/
theorem cell_writeWords_outside {m : Memory} {a b : Nat} {ws : List Int} (h : b < a ∨ a + ws.length ≤ b) :
    (m.writeWords a ws).cell b = m.cell b := by
  induction ws generalizing m a with
  | nil => rfl
  | cons v rest ih =>
    rw [List.length_cons] at h
    rw [Memory.writeWords, ih (by omega), cell_write, if_neg (by omega)]

/-- Words written from `a` on, all of them in memory, read back. -/
theorem cell_writeWords_inside {m : Memory} {a k : Nat} {ws : List Int} (hfit : a + ws.length ≤ m.length)
    (hk : k < ws.length) : (m.writeWords a ws).cell (a + k) = ws[k] := by
  induction ws generalizing m a k with
  | nil => exact absurd hk (Nat.not_lt_zero k)
  | cons v rest ih =>
    rw [List.length_cons] at hfit hk
    cases k with
    | zero => rw [Memory.writeWords, cell_writeWords_outside (by omega), cell_write, if_pos (by omega)]; rfl
    | succ k =>
      have hfit' : a + 1 + rest.length ≤ (m.write a v).length := by rw [write_length]; omega
      rw [Memory.writeWords, ← Nat.add_assoc, Nat.add_right_comm]
      exact ih hfit' (Nat.lt_of_succ_lt_succ hk)

/-! ### The loaded state -/

/-- The four words from the pointer on are the loaded pattern's. -/
theorem withFetchWord_cell_inside (s : State) (nbits w : Nat) {k : Nat} (hk : k < 4) :
    (s.withFetchWord nbits w).mem.cell (s.pc.toNat + k) = tableWord s.params.wordBits nbits w k := by
  refine (cell_writeWords_inside (by simp) (by simpa using hk)).trans ?_
  rw [List.getElem_map, List.getElem_range]

/-- Every other word is as before. -/
theorem withFetchWord_cell_outside (s : State) (nbits w : Nat) {a : Nat}
    (h : a < s.pc.toNat ∨ s.pc.toNat + 4 ≤ a) : (s.withFetchWord nbits w).mem.cell a = s.mem.cell a :=
  cell_writeWords_outside (by simpa using h)

theorem withFetchWord_length (s : State) (nbits w : Nat) :
    (s.withFetchWord nbits w).mem.length = max s.mem.length (s.pc.toNat + 4) :=
  writeWords_length _ _ _

/-- The next step fetches the loaded pattern's first word. -/
theorem fetches_withFetchWord {s : State} {nbits w : Nat} {i : Instr}
    (h : decode (tableWord s.params.wordBits nbits w 0) = .ok i) : Fetches (s.withFetchWord nbits w) i := by
  refine ⟨rfl, ?_, ?_⟩
  · rw [Memory.InRange, withFetchWord_length, withFetchWord_pc]
    omega
  · rw [withFetchWord_pc, Int.toNat_natCast]
    exact (congrArg decode (withFetchWord_cell_inside s nbits w (k := 0) (by decide))).trans h

end Sys2Proof.Machine

open Sys2Proof Sys2Proof.Machine

/-- Settles O26: the four words are written where memory has been made long enough for them. -/
theorem loadedInstructionRunsNext : Obligations.LoadedInstructionRunsNext :=
  fun s nbits w _ hdecode =>
    ⟨step_of_fetches (fetches_withFetchWord hdecode), rfl, rfl, rfl,
      fun k => withFetchWord_cell_inside s nbits w k.isLt, fun _ => withFetchWord_cell_outside s nbits w⟩

end

section
/-! A machine from `create` to its result (O45, O47, O49, O57). -/

namespace Sys2Proof.Machine

/-- `create` builds a machine exactly when the width, the image and the input are ones the spec allows (rule R130). -/
theorem exists_create_ok_iff {p : Params} {image input : List Int} :
    (∃ s, create p image input = .ok s) ↔ p.wf ∧ ImageWf p.wordBits image ∧ WordsFit p.wordBits input := by
  constructor
  · rintro ⟨s, h⟩
    obtain ⟨hp, himage, hinput, _⟩ := create_ok h
    exact ⟨hp, himage, hinput⟩
  · rintro ⟨hp, ⟨hlen, himage⟩, hinput⟩
    refine ⟨⟨p, Memory.ofWords image, 0, input, [], .running, none⟩, ?_⟩
    rw [create, if_neg (not_not_intro hp), if_neg (not_not_intro hlen), if_neg (not_not_intro himage),
      if_neg (not_not_intro hinput)]

/-- A constructed machine meets the invariant however long it runs. -/
theorem runFor_create_inv {p : Params} {image input : List Int} {s : State} (h : create p image input = .ok s)
    (fuel : Nat) : (runFor fuel s).Inv :=
  runFor_keeps State.Inv.step fuel (create_inv h)

/-! ### The result of a run (rules R131, R134 and R138) -/

/-- Under the invariant a stopped state has a result: a Failed one has recorded its error. -/
theorem runResult_isSome_iff {s : State} (h : s.Inv) : (runResult s).isSome ↔ s.runState ≠ .running := by
  have herr := h.err_iff
  unfold runResult
  cases hr : s.runState with
  | running => simp
  | halted => simp
  | failed => simpa [hr] using herr

theorem finalMemory_isSome_iff (s : State) : (finalMemory s).isSome ↔ s.runState ≠ .running := by
  unfold finalMemory
  cases s.runState <;> simp

/-- The last step of a run that is still Running was taken from the state before it (rule R123). -/
theorem runFor_succ_of_running {n : Nat} {s : State} (h : (runFor (n + 1) s).runState = .running) :
    step (runFor n s) = .next (runFor (n + 1) s) := by
  rw [runFor_add] at h ⊢
  by_cases hrun : (runFor n s).runState = .running
  · obtain ⟨t, ht⟩ := exists_step_of_running hrun
    rw [runFor_succ_of_step ht, ht]
    rfl
  · rw [runFor_of_not_running hrun] at h
    exact absurd h hrun

end Sys2Proof.Machine

open Sys2Proof Sys2Proof.Machine

/-- Settles O45: `create` gives a state that meets the invariant, and every step keeps it. -/
theorem constructedInstancesKeepTheInvariant : Obligations.ConstructedInstancesKeepTheInvariant :=
  fun _ _ _ _ fuel hcreate => runFor_create_inv hcreate fuel

/-- Settles O47: the checks of `create` are these bounds. -/
theorem createRefusesWhatDoesNotFit : Obligations.CreateRefusesWhatDoesNotFit := by
  intro p image input
  rw [exists_create_ok_iff, ImageWf, and_assoc]
  rfl

/-- Settles O49: a stopped state has no step, so its run stays where it is. -/
theorem stoppedInstancesStayStopped : Obligations.StoppedInstancesStayStopped := by
  intro s
  refine ⟨runFor_of_not_running, fun fuel more hstopped => ?_, fun hinv fuel => ?_, fun h => ?_, fun e h he => ?_⟩
  · rw [runFor_add, runFor_of_not_running hstopped]
  · exact ⟨runResult_isSome_iff (runFor_keeps State.Inv.step fuel hinv), finalMemory_isSome_iff _⟩
  · simp only [runResult, finalMemory, h, and_self]
  · simp only [runResult, h, he, Option.map_some]

/-- Settles O57: a run with divided fuel is one run, whose last step is the step of the state before. -/
theorem runsCompose : Obligations.RunsCompose :=
  fun m n s => ⟨runFor_add m n s, fun hrun => ⟨_, runFor_succ_of_running hrun, rfl⟩⟩

end

section
/-! Arithmetic (O30, O31, O32): the word a result out of range wraps to, and what Add and Mul do with the narrowed result. -/

namespace Sys2Proof.Machine

/-! ### Wrapping -/

/-- Wrapping gives a word of every width: Add and Mul are settled for every state, also one whose width is below the 16
that `wrapWord_inWord` asks for. -/
theorem inWord_wrapWord (W : Nat) (x : Int) : InWord W (wrapWord W x) := by
  have hpos : (0 : Int) < 2 ^ W := by positivity
  have hlo := Int.emod_nonneg (x + 2 ^ (W - 1)) hpos.ne'
  have hhi := Int.emod_lt_of_pos (x + 2 ^ (W - 1)) hpos
  have hpow : (2 : Int) ^ W ≤ 2 ^ (W - 1) * 2 := by
    rw [← pow_succ]
    exact pow_le_pow_right₀ (by decide) (by omega)
  constructor <;> simp only [wmin, wmax, wrapWord] <;> omega

/-- Wrapping changes a result by a multiple of `2^W` (rule R10). -/
theorem dvd_wrapWord_sub (W : Nat) (x : Int) : (2 : Int) ^ W ∣ wrapWord W x - x := by
  have hdvd : (2 : Int) ^ W ∣ (x + 2 ^ (W - 1)) % 2 ^ W - (x + 2 ^ (W - 1)) := Int.dvd_emod_sub_self
  rwa [← sub_sub, sub_right_comm] at hdvd

/-- A word that differs from `x` by a multiple of `2^W` is the one `x` wraps to: shifted by `2^(W-1)` it is a remainder
modulo `2^W`. -/
theorem eq_wrapWord {W : Nat} {v x : Int} (hW : 1 ≤ W) (hv : InWord W v) (hdvd : (2 : Int) ^ W ∣ v - x) :
    v = wrapWord W x := by
  obtain ⟨hlo, hhi⟩ := hv
  simp only [wmin, wmax] at hlo hhi
  have hpow : (2 : Int) ^ W = 2 ^ (W - 1) * 2 := by rw [← pow_succ, Nat.sub_add_cancel hW]
  have hmod : x + 2 ^ (W - 1) ≡ v + 2 ^ (W - 1) [ZMOD 2 ^ W] := (Int.modEq_iff_dvd.2 hdvd).add_right _
  have hrem : (v + 2 ^ (W - 1)) % 2 ^ W = v + 2 ^ (W - 1) := Int.emod_eq_of_lt (by omega) (by omega)
  rw [wrapWord, hmod.eq, hrem, add_sub_cancel_right]

/-! ### Narrowing a result out of range (rule R142) -/

theorem narrow_of_fault {p : Params} {x : Int} (op : ArithOp) (hx : ¬ InWord p.wordBits x)
    (hmode : p.overflowMode = .fault) : narrow p op x = .error (.arithmeticOverflow op) := by
  simp only [narrow, if_neg hx, hmode]

theorem narrow_of_wrap {p : Params} {x : Int} (op : ArithOp) (hx : ¬ InWord p.wordBits x)
    (hmode : p.overflowMode = .wrap) : narrow p op x = .ok (wrapWord p.wordBits x) := by
  simp only [narrow, if_neg hx, hmode]

/-! ### Add and Mul -/

section
variable {i : Instr} {s : State} {op : ArithOp} {x : Int}
  (hi : instrEffects i s = arithEffects op x s (.position (targetIndex s 2)))
include hi

/-- Add or Mul with a Position target writes the narrowed result there and advances by 4. -/
theorem exec_arith_of_narrow_ok {v : Int} (hn : narrow s.params op x = .ok v) :
    exec i s = .next { s with mem := s.mem.write (targetIndex s 2) v, pc := s.pc + 4 } := by
  rw [exec_eq_complete, hi, arithEffects, address_position, ok_bind, hn]
  rfl

/-- Add or Mul with a Position target fails with the error of its narrowing. -/
theorem exec_arith_of_narrow_error {e : Err} (hn : narrow s.params op x = .error e) :
    exec i s = .next (failedWith s e) :=
  exec_of_instrEffects_error (by rw [hi, arithEffects, address_position, ok_bind, hn, error_bind])

/-- The three ways Add or Mul with a Position target can end, by its exact result `x` and the overflow mode. -/
theorem exec_arith_writes_or_overflows :
    (InWord s.params.wordBits x →
      exec i s = .next { s with mem := s.mem.write (targetIndex s 2) x, pc := s.pc + 4 }) ∧
    (¬ InWord s.params.wordBits x → s.params.overflowMode = .wrap →
      ∃ v, InWord s.params.wordBits v ∧ (2 : Int) ^ s.params.wordBits ∣ v - x ∧
        exec i s = .next { s with mem := s.mem.write (targetIndex s 2) v, pc := s.pc + 4 }) ∧
    (¬ InWord s.params.wordBits x → s.params.overflowMode = .fault →
      exec i s = .next (failedWith s (.arithmeticOverflow op))) := by
  refine ⟨fun hx => ?_, fun hx hmode => ?_, fun hx hmode => ?_⟩
  · exact exec_arith_of_narrow_ok hi (narrow_of_fits op hx)
  · exact ⟨_, inWord_wrapWord _ x, dvd_wrapWord_sub _ x, exec_arith_of_narrow_ok hi (narrow_of_wrap op hx hmode)⟩
  · exact exec_arith_of_narrow_error hi (narrow_of_fault op hx hmode)

end

end Sys2Proof.Machine

open Sys2Proof Sys2Proof.Machine

/-- Settles O30: with its arguments ready, Add narrows the sum of its operands. -/
theorem addWritesTheNarrowedSum : Obligations.AddWritesTheNarrowedSum := by
  intro s m0 m1 h0 h1 h2
  refine exec_arith_writes_or_overflows (op := .add) ?_
  rw [instrEffects, withArgs3_of_ready _ h0 h1 h2, value_paramOf, value_paramOf, paramOf]

/-- Settles O31: with its arguments ready, Mul narrows the product of its operands. -/
theorem mulWritesTheNarrowedProduct : Obligations.MulWritesTheNarrowedProduct := by
  intro s m0 m1 h0 h1 h2
  refine exec_arith_writes_or_overflows (op := .mul) ?_
  rw [instrEffects, withArgs3_of_ready _ h0 h1 h2, value_paramOf, value_paramOf, paramOf]

/-- Settles O32: narrowing wraps to a word that differs by a multiple of `2^W`, and there is only one. -/
theorem narrowKeepsFaultsOrWraps : Obligations.NarrowKeepsFaultsOrWraps := by
  intro p op x hp
  have hW : 16 ≤ p.wordBits := hp
  refine ⟨narrow_of_fits op, narrow_of_fault op, fun hx hmode v => ?_⟩
  rw [narrow_of_wrap op hx hmode, Except.ok.injEq]
  constructor
  · rintro rfl
    exact ⟨wrapWord_inWord hW x, dvd_wrapWord_sub _ x⟩
  · rintro ⟨hv, hdvd⟩
    exact (eq_wrapWord (by omega) hv hdvd).symm

end

section
/-! Input and Output (O33, O34): with the argument ready, the queue alone decides whether Input completes, and the log
alone whether Output does. -/

namespace Sys2Proof.Machine

/-! ### Input (rule R150); `exec_input_of_cons` is the case of a value in the queue -/

theorem exec_input_of_nil {s : State} (m1 m2 : Mode) (h0 : ArgReady s 0 .position) (hq : s.inQueue = []) :
    exec (.input .position m1 m2) s = .next (failedWith s .inputExhausted) := by
  apply exec_of_instrEffects_error
  rw [instrEffects, withArgs1_of_ready _ h0, inputEffects, address_paramOf_position, ok_bind, hq]

/-! ### Output (rules R151 and R11) -/

section
variable {s : State} {m0 : Mode} (m1 m2 : Mode) (h0 : ArgReady s 0 m0)
include h0

theorem exec_output_of_not_logFull (hl : ¬ logFull s) :
    exec (.output m0 m1 m2) s = .next { s with outLog := s.outLog ++ [operandValue s 0 m0], pc := s.pc + 2 } := by
  rw [exec_eq_complete, instrEffects, withArgs1_of_ready _ h0, outputEffects, if_neg hl, value_paramOf]
  rfl

theorem exec_output_of_logFull (hl : logFull s) :
    exec (.output m0 m1 m2) s = .next (failedWith s .outputOverflow) := by
  apply exec_of_instrEffects_error
  rw [instrEffects, withArgs1_of_ready _ h0, outputEffects, if_pos hl]

end

end Sys2Proof.Machine

open Sys2Proof Sys2Proof.Machine

/-- Settles O33, by whether the queue has a front. -/
theorem inputStoresTheFrontOfTheQueue : Obligations.InputStoresTheFrontOfTheQueue := fun _ m1 m2 h0 =>
  ⟨fun _ _ hq => exec_input_of_cons m1 m2 h0 hq, exec_input_of_nil m1 m2 h0⟩

/-- Settles O34: the log is full exactly when its length is the capacity. -/
theorem outputAppendsItsValue : Obligations.OutputAppendsItsValue := by
  intro s m0 m1 m2 h0
  refine ⟨fun hroom => ?_, fun K hK hlen => ?_⟩
  · exact exec_output_of_not_logFull m1 m2 h0 fun hl => hroom _ (logFull_iff.1 hl) rfl
  · exact exec_output_of_logFull m1 m2 h0 (logFull_iff.2 (hlen ▸ hK))

end

section
/-! Jumps (O35): `exec_jumpIfTrue_of_ready` and `exec_jumpIfFalse_of_ready` give the pointer by whether the condition is
positive. -/

open Sys2Proof Sys2Proof.Machine

/-- Settles O35: with ready arguments, whether the condition is positive decides both jumps, in opposite ways. -/
theorem jumpsTestForStrictlyPositive : Obligations.JumpsTestForStrictlyPositive := by
  intro s m0 m1 m2 h0 h1
  rw [exec_jumpIfTrue_of_ready m2 h0 h1, exec_jumpIfFalse_of_ready m2 h0 h1]
  constructor
  · intro hpos
    simp only [if_pos hpos, and_self]
  · intro hnonpos
    simp only [if_neg (Int.not_lt.2 hnonpos), and_self]

end

section
/-! Comparisons (O37, O38): LessThan and Equals share one lemma, over the proposition whose truth value they store. -/

namespace Sys2Proof.Machine

/-- A comparison of `P` with a Position target writes 1 there when `P` holds and 0 when it does not, and advances by 4. -/
theorem exec_compare_writes_one_or_zero {i : Instr} {s : State} {P : Prop} [Decidable P]
    (hi : instrEffects i s = compareEffects (decide P) s (paramOf s 2 .position)) :
    (P → exec i s = .next { s with mem := s.mem.write (targetIndex s 2) 1, pc := s.pc + 4 }) ∧
    (¬ P → exec i s = .next { s with mem := s.mem.write (targetIndex s 2) 0, pc := s.pc + 4 }) := by
  rw [exec_eq_complete, hi, compareEffects, address_paramOf_position, ok_bind]
  constructor
  · intro hP
    rw [decide_eq_true hP, boolWord_true]
    rfl
  · intro hP
    rw [decide_eq_false hP, boolWord_false]
    rfl

end Sys2Proof.Machine

open Sys2Proof Sys2Proof.Machine

/-- Settles O37: with its arguments ready, LessThan compares by the signed order, so what is not less is at least. -/
theorem lessThanWritesOneOrZero : Obligations.LessThanWritesOneOrZero := by
  intro s m0 m1 h0 h1 h2
  rw [← Int.not_lt]
  apply exec_compare_writes_one_or_zero
  rw [instrEffects, withArgs3_of_ready _ h0 h1 h2, value_paramOf, value_paramOf]

/-- Settles O38: with its arguments ready, Equals compares the values of its operands. -/
theorem equalsWritesOneOrZero : Obligations.EqualsWritesOneOrZero := by
  intro s m0 m1 h0 h1 h2
  apply exec_compare_writes_one_or_zero
  rw [instrEffects, withArgs3_of_ready _ h0 h1 h2, value_paramOf, value_paramOf]

end

section
/-! Terminate (O39): it reports one effect record in every state, which writes nothing and halts. -/

namespace Sys2Proof.Machine

/-- Committing the bare halt sets the run state and leaves every other field (rules R118 and R180). -/
theorem commit_halt (s : State) : commit s ⟨none, false, none, .halt⟩ = { s with runState := .halted } := by
  simp only [commit, memAfter_none, pcAfter_halt, queueAfter_false, logAfter_none, runStateAfter_halt]

end Sys2Proof.Machine

open Sys2Proof Sys2Proof.Machine

/-- Settles O39: Terminate resolves no argument, so it raises no error, and what it commits is the bare halt. -/
theorem terminateHalts : Obligations.TerminateHalts := by
  intro s m0 m1 m2
  have heffects : instrEffects (.terminate m0 m1 m2) s = .ok ⟨none, false, none, .halt⟩ := rfl
  rw [exec_eq_complete, heffects, complete_ok, commit_halt]

end

section
/-! Exceptions: what an instruction can raise after its decode (O20), and the columns of the error table (O53). -/

namespace Sys2Proof.Machine

/-- A step that fails after its fetch and decode fails by an error of the instruction it fetched (rules R191 and R192). -/
theorem Fetches.mayRaise_of_failed {s t : State} {i : Instr} (hf : Fetches s i) (hstep : step s = .next t)
    (hfailed : t.runState = .failed) : ∃ e, MayRaise i s e ∧ t = failedWith s e := by
  have hexec : exec i s = .next t := (step_of_fetches hf).symm.trans hstep
  rcases exec_next_cases hexec with hc | hraise
  · exact absurd hfailed (hc.runState_ne_failed hf.1)
  · exact hraise

/-- The column ERR_ARG holds an argument index unchanged: it fits the field's 2 bits (rule R190). -/
theorem argField_toNat (i : Fin 3) : (BitVec.ofNat 2 i.val).toNat = i.val :=
  (BitVec.toNat_ofNat _ _).trans (Nat.mod_eq_of_lt (by omega))

end Sys2Proof.Machine

open Sys2Proof Sys2Proof.Machine

/-- Settles O20: the error that failure entry records is the one the fetched instruction raised. -/
theorem eachInstructionRaisesOnlyItsErrors : Obligations.EachInstructionRaisesOnlyItsErrors := by
  intro s t i hf hstep hfailed
  obtain ⟨e, hraise, rfl⟩ := hf.mayRaise_of_failed hstep hfailed
  exact ⟨e, rfl, hraise⟩

/-- Settles O53: the table's rows are the definitions, once an argument index is known to fit its 2-bit field. -/
theorem errorCodesAndPayloads : Obligations.ErrorCodesAndPayloads := by
  intro w i m
  have harg := argField_toNat i
  exact ⟨rfl, rfl, rfl, rfl, harg, rfl, rfl, harg, rfl, rfl, harg, rfl, rfl, rfl, rfl, rfl, rfl, rfl, rfl, harg, rfl,
    rfl, rfl, rfl, rfl, rfl, rfl, rfl, rfl, rfl⟩

end

section
/-! Construction and reset (O44, O46, O48): reset is what `create` builds of the empty image, so what holds of every
construction holds of it. -/

namespace Sys2Proof.Machine

/-- `create` builds exactly this machine, when the width, the image and the input are ones the spec allows (rules R130
and R221). -/
theorem create_eq_ok {p : Params} {image input : List Int} (hp : p.wf) (himage : ImageWf p.wordBits image)
    (hinput : WordsFit p.wordBits input) :
    create p image input = .ok ⟨p, Memory.ofWords image, 0, input, [], .running, none⟩ := by
  obtain ⟨s, h⟩ := exists_create_ok_iff.2 ⟨hp, himage, hinput⟩
  obtain ⟨_, _, _, rfl⟩ := create_ok h
  exact h

/-- Reset is the construction from the empty image with no input. -/
theorem create_default_nil_nil : create Params.default [] [] = .ok State.reset :=
  create_eq_ok (by decide) ⟨Nat.zero_le _, List.forall_mem_nil _⟩ (List.forall_mem_nil _)

/-! ### STATUS and ERR_VALUE of a Running machine without an error (rule R33) -/

/-- STATE and ERR_CODE are 0, and ERR_ARG is 3, for no argument. -/
theorem statusReg_of_running {s : State} (hrun : s.runState = .running) (herr : s.err = none) :
    statusReg s = 0b0000001100000000#16 := by
  rw [statusReg, errArg, errCode, hrun, herr]
  rfl

theorem errValueReg_of_err_eq_none {s : State} (herr : s.err = none) : errValueReg s = 0 := by
  simp only [errValueReg, herr]

end Sys2Proof.Machine

open Sys2Proof Sys2Proof.Machine

/-- Settles O46: `create` builds one machine, whose memory holds the image by O11 and whose STATUS is that of every
Running machine without an error. -/
theorem constructionGivesEveryPieceItsValue : Obligations.ConstructionGivesEveryPieceItsValue := by
  intro p image input s hcreate
  obtain ⟨_, _, _, rfl⟩ := create_ok hcreate
  obtain ⟨hlen, hcell, _⟩ := constructedMemoryHoldsTheImage image
  rw [statusReg_of_running rfl rfl]
  exact ⟨rfl, hcell, hlen, rfl, rfl, rfl, rfl, rfl, rfl, rfl, rfl, errValueReg_of_err_eq_none rfl⟩

/-- Settles O44: reset is a construction, and every constructed machine meets the invariant. -/
theorem resetMeetsTheInvariant : Obligations.ResetMeetsTheInvariant :=
  ⟨create_inv create_default_nil_nil, rfl⟩

/-- Settles O48: the empty image passes the checks of `create`, and the machine built of it is Running without an
error. -/
theorem resetIsAnEmptyConstruction : Obligations.ResetIsAnEmptyConstruction :=
  ⟨create_default_nil_nil, rfl, rfl, rfl, rfl, statusReg_of_running rfl rfl, errValueReg_of_err_eq_none rfl⟩

end
